-- ==== Sys2Proof/Word.lean ====
section
/-!
DEFINITION. The fixed widths of the block (00_scope.md R8): host data words and IPv4 addresses of 32 bits,
checksums and length registers of 16 bits, bytes of 8 bits, host byte addresses of 16 bits.
-/

namespace Sys2Proof

/-- A host data word or an IPv4 address (R8). -/
abbrev Word := BitVec 32

/-- A checksum, an accumulator value or a buffer length (R8). -/
abbrev Half := BitVec 16

/-- One byte of a datagram buffer (R31). -/
abbrev Byte := BitVec 8

/-- A byte address on the host port (R8, R35). -/
abbrev PortAddr := BitVec 16

end Sys2Proof
end

