-- ==== Sys2Proof/Config.lean ====
section
/-!
DEFINITION. What an implementation fixes (the three parameters of 00_scope.md R7) and the one value the spec leaves
open (the content of a buffer byte never written, 93_implementation_defined.md U4).
-/

namespace Sys2Proof.Config

/-- The parameters of R7. A state carries them (`State.cfg`), so every statement is about any legal value. -/
structure Params where
  /-- `BUF_BYTES`: capacity in bytes of each of the IN and OUT buffers. -/
  bufBytes : Nat
  /-- `N_RT`: number of route-table entries. -/
  nRt : Nat
  /-- `N_IF`: number of interface-table entries. -/
  nIf : Nat
deriving DecidableEq, Repr

/-- The values the spec's vectors use (R7, 95_test_vectors.md): 2048, 64, 8. DESIGN CHOICE: `State.reset` takes these
(log entry 1); unsafe only for a claim that leans on them. -/
def vectorParams : Params := { bufBytes := 2048, nRt := 64, nIf := 8 }

/-- The value that read number `d` of a buffer byte yields when the byte is unwritten (R31, U4: "a fresh draw at each
read"). It has no body: nothing is known of it. Safe (log entry 2). -/
opaque freeByte : Nat → Byte

end Sys2Proof.Config
end

