-- ==== Sys2Proof/Syntax.lean ====
section
/-!
DEFINITION. The commands of the block (30_encoding.md R54, one constructor per row of spec/opcode_table.json), the
fields of a command word (R50), and the inputs of the machine: host-port accesses (20_memory.md R38), the Block's
turns and the reset input (R45, 70_reset_and_hazards.md R102).
-/

namespace Sys2Proof

/-- The fourteen legal commands (R54). A command carries no operands: they sit in fixed registers and buffers (R51). -/
inductive Instr where
  /-- `csum.clr` (R67). -/
  | csumClr
  /-- `csum.add in` (R68, B = 0). -/
  | csumAddIn
  /-- `csum.add out` (R68, B = 1). -/
  | csumAddOut
  /-- `csum.val in` (R69, B = 0). -/
  | csumValIn
  /-- `csum.val out` (R69, B = 1). -/
  | csumValOut
  /-- `csum.fix in` (R71, B = 0). -/
  | csumFixIn
  /-- `csum.fix out` (R71, B = 1). -/
  | csumFixOut
  /-- `hdr.fwd` (R72). -/
  | hdrFwd
  /-- `lpm arg` (R78, K = 0). -/
  | lpmArg
  /-- `lpm dst` (R78, K = 1). -/
  | lpmDst
  /-- `icmp.err tx` (R86, ESEL = 0). -/
  | icmpErrTx
  /-- `icmp.err net` (R86, ESEL = 1). -/
  | icmpErrNet
  /-- `icmp.err port` (R86, ESEL = 2). -/
  | icmpErrPort
  /-- `icmp.echo` (R89). -/
  | icmpEcho
deriving DecidableEq, Repr

/-- Every command once, in the order of R54. -/
def Instr.all : List Instr :=
  [.csumClr, .csumAddIn, .csumAddOut, .csumValIn, .csumValOut, .csumFixIn, .csumFixOut, .hdrFwd, .lpmArg, .lpmDst,
    .icmpErrTx, .icmpErrNet, .icmpErrPort, .icmpEcho]

/-- The fields of a command word (R50): OP[7:0], F[9:8], RSV[31:10]. -/
structure CmdFields where
  /-- OP, the opcode. -/
  op : BitVec 8
  /-- F, the function field. -/
  f : BitVec 2
  /-- RSV, the reserved field. -/
  rsv : BitVec 22
deriving DecidableEq, Repr

/-- The buffer selector B of R51: 0 = IN, 1 = OUT. -/
inductive Buf where
  /-- The IN buffer. -/
  | inB
  /-- The OUT buffer. -/
  | outB
deriving DecidableEq, Repr

/-- One access of the host at the port (R38). The width is in bytes; an access outside the port's protocol can be
written down here and is refused by the machine. -/
inductive HostAccess where
  /-- A read of `width` bytes at `a`. -/
  | read (a : PortAddr) (width : Nat)
  /-- A write of `width` bytes at `a`. -/
  | write (a : PortAddr) (width : Nat) (v : Word)
deriving DecidableEq, Repr

/-- One entry of the total order of R45: who moves next. -/
inductive Turn where
  /-- The host performs an access. -/
  | host (x : HostAccess)
  /-- The Block has the chance to step. -/
  | block
  /-- The reset input is asserted (R102). -/
  | reset
deriving DecidableEq, Repr

end Sys2Proof
end

