-- ==== Sys2Proof/WellFormed.lean ====
section
/-!
DEFINITION. The checks on what can be written down: legal parameters (00_scope.md R7), legal command words
(30_encoding.md R52, R55) and host accesses inside the port's protocol (20_memory.md R38).
-/

namespace Sys2Proof

/-- R7: the legal values of the three parameters. -/
def Config.Params.legal (p : Config.Params) : Bool :=
  p.bufBytes % 4 == 0 && decide (96 ≤ p.bufBytes) && decide (p.bufBytes ≤ 16384) &&
    decide (1 ≤ p.nRt) && decide (p.nRt ≤ 256) && decide (1 ≤ p.nIf) && decide (p.nIf ≤ 32)

/-- R52: the F values the opcode map lists for an opcode; empty where the opcode is reserved. -/
def legalF (op : BitVec 8) : List Nat :=
  match op.toNat with
  | 0x01 => [0]
  | 0x02 => [0, 1]
  | 0x03 => [0, 1]
  | 0x04 => [0, 1]
  | 0x05 => [0]
  | 0x10 => [0, 1]
  | 0x20 => [0, 1, 2]
  | 0x21 => [0]
  | _ => []

/-- R52: the opcode is assigned. -/
def CmdFields.opAssigned (c : CmdFields) : Bool := !(legalF c.op).isEmpty

/-- R52: F holds a value the map lists for the opcode. -/
def CmdFields.fListed (c : CmdFields) : Bool := (legalF c.op).contains c.f.toNat

/-- R50, R55: a command word is legal when RSV is 0, OP is assigned and F is listed for it. -/
def CmdFields.wf (c : CmdFields) : Bool := c.rsv == 0 && c.opAssigned && c.fListed

/-- A command has no operand field (R51), so every term of `Instr` is well formed. -/
def Instr.wf (_ : Instr) : Bool := true

/-- The byte address an access goes to. -/
def HostAccess.addr : HostAccess → PortAddr
  | .read a _ => a
  | .write a _ _ => a

/-- The width of an access in bytes. -/
def HostAccess.width : HostAccess → Nat
  | .read _ w => w
  | .write _ w _ => w

/-- R38: the port performs only 32-bit accesses. -/
def HostAccess.widthOk (x : HostAccess) : Bool := x.width == 4

/-- R38: the port performs only accesses with `a[1:0] = 0`. -/
def HostAccess.aligned (x : HostAccess) : Bool := x.addr.toNat % 4 == 0

/-- R38: the access is inside the port's protocol, the busy hazard apart. -/
def HostAccess.wf (x : HostAccess) : Bool := x.widthOk && x.aligned

end Sys2Proof
end

