-- ==== Sys2Proof/Decode.lean ====
section
/-!
DEFINITION. Decoding and encoding of command words (30_encoding.md R50, R52, R53, R54, R55). Decoding is total on any
32-bit word and rejects by name; every rejected word is completed with E_ILLEGAL by the Block's step.
-/

namespace Sys2Proof

/-- Why a command word is illegal (R55). Every reason has the same effect, E_ILLEGAL; which one is named where several
hold is a DESIGN CHOICE (log entry 13), safe. -/
inductive DecodeError where
  /-- `RSV ≠ 0`. -/
  | reservedBits
  /-- OP is not in the table of R52. -/
  | unassignedOp
  /-- F holds a value the table does not list for OP. -/
  | illegalFunction
deriving DecidableEq, Repr

/-- R50: bits 7:0 are OP, bits 9:8 are F, bits 31:10 are RSV. -/
def splitWord (w : Word) : CmdFields :=
  { op := w.extractLsb' 0 8, f := w.extractLsb' 8 2, rsv := w.extractLsb' 10 22 }

/-- R50: the word with the given fields. -/
def joinWord (c : CmdFields) : Word := BitVec.ofNat 32 (c.rsv.toNat * 1024 + c.f.toNat * 256 + c.op.toNat)

/-- R52, R53: the command of an opcode and function field whose reserved bits are 0. -/
def decodeOpF (op f : Nat) : Except DecodeError Instr :=
  match op, f with
  | 0x01, 0 => .ok .csumClr
  | 0x02, 0 => .ok .csumAddIn
  | 0x02, 1 => .ok .csumAddOut
  | 0x03, 0 => .ok .csumValIn
  | 0x03, 1 => .ok .csumValOut
  | 0x04, 0 => .ok .csumFixIn
  | 0x04, 1 => .ok .csumFixOut
  | 0x05, 0 => .ok .hdrFwd
  | 0x10, 0 => .ok .lpmArg
  | 0x10, 1 => .ok .lpmDst
  | 0x20, 0 => .ok .icmpErrTx
  | 0x20, 1 => .ok .icmpErrNet
  | 0x20, 2 => .ok .icmpErrPort
  | 0x21, 0 => .ok .icmpEcho
  | 0x01, _ => .error .illegalFunction
  | 0x02, _ => .error .illegalFunction
  | 0x03, _ => .error .illegalFunction
  | 0x04, _ => .error .illegalFunction
  | 0x05, _ => .error .illegalFunction
  | 0x10, _ => .error .illegalFunction
  | 0x20, _ => .error .illegalFunction
  | 0x21, _ => .error .illegalFunction
  | _, _ => .error .unassignedOp

/-- R50, R55: the command a word written to CMD stands for, or why it is illegal. -/
def decode (w : Word) : Except DecodeError Instr :=
  let c := splitWord w
  if c.rsv = 0 then decodeOpF c.op.toNat c.f.toNat else .error .reservedBits

/-- R52, R53: the OP and F of a command. -/
def fieldsOf (i : Instr) : CmdFields :=
  match i with
  | .csumClr => { op := 0x01, f := 0, rsv := 0 }
  | .csumAddIn => { op := 0x02, f := 0, rsv := 0 }
  | .csumAddOut => { op := 0x02, f := 1, rsv := 0 }
  | .csumValIn => { op := 0x03, f := 0, rsv := 0 }
  | .csumValOut => { op := 0x03, f := 1, rsv := 0 }
  | .csumFixIn => { op := 0x04, f := 0, rsv := 0 }
  | .csumFixOut => { op := 0x04, f := 1, rsv := 0 }
  | .hdrFwd => { op := 0x05, f := 0, rsv := 0 }
  | .lpmArg => { op := 0x10, f := 0, rsv := 0 }
  | .lpmDst => { op := 0x10, f := 1, rsv := 0 }
  | .icmpErrTx => { op := 0x20, f := 0, rsv := 0 }
  | .icmpErrNet => { op := 0x20, f := 1, rsv := 0 }
  | .icmpErrPort => { op := 0x20, f := 2, rsv := 0 }
  | .icmpEcho => { op := 0x21, f := 0, rsv := 0 }

/-- The command word of a command (R54). -/
def encode (i : Instr) : Word := joinWord (fieldsOf i)

/-- The word the table numbers by `nbits` and `w`: a command is one 32-bit word written whole to CMD (R50), with no byte
order of its own; bits above `nbits` are 0, and more than 32 bits are no command word (log entry 14). -/
def tableWord (nbits w : Nat) : Option Word :=
  if nbits ≤ 32 then some (BitVec.ofNat 32 (w % 2 ^ nbits)) else none

/-- What the decoder reads from an opcode-table word. -/
def decodeTableWord (nbits w : Nat) : Option Instr :=
  match tableWord nbits w with
  | none => none
  | some v =>
    match decode v with
    | .ok i => some i
    | .error _ => none

end Sys2Proof
end

