-- ==== Sys2Proof/Machine/State.lean ====
section
/-!
DEFINITION. The state of the machine as plain data (10_state.md R16 to R34), the reasons a step can stop
(60_exceptions.md R98) and the state after reset (70_reset_and_hazards.md R103).
-/

namespace Sys2Proof.Machine

/-- R98: no command and no access ends in a fault ("deterministic, and never a fault"), so the type has no constructor:
nobody can raise one (DEDUCED, log entry 16). Safe. -/
inductive Fault where
deriving DecidableEq, Repr

/-- Why the machine has no step (R98). Every refusal is safe: it errs toward unprovable (92_eei_decisions.md D3, D32). -/
inductive Refusal where
  /-- An instruction without a meaning yet; no arm of `exec` raises it. Safe. -/
  | notModelled (mnemonic : String)
  /-- R38, U6: a host access whose width is not 32 bits. Raised by the host port. Safe. -/
  | wrongWidth
  /-- R38, U6: a host access at an address with `a[1:0] ≠ 0`. Raised by the host port. Safe. -/
  | misaligned
  /-- R106, U5: a host access other than a STATUS read while BUSY = 1. Raised by the host port. Safe. -/
  | busyHazard
deriving DecidableEq, Repr

/-- The completion codes of R91 other than 0. -/
inductive ErrCode where
  /-- Code 1: the command word is illegal. -/
  | illegal
  /-- Code 2: an operand addresses outside its table or buffer. -/
  | range
  /-- Code 3: a length or header field fails a well-formedness check. -/
  | malformed
  /-- Code 4: IN is not an ICMP echo request. -/
  | notEcho
  /-- Code 5: the triggering interface entry is invalid. -/
  | noIf
deriving DecidableEq, Repr

/-- The fields of STATUS (R20). The reserved bits 3:1 and 31:11 read 0 and are never written, so they hold nothing. -/
structure Status where
  /-- Bit 0: a command is pending. -/
  busy : Bool
  /-- Bits 7:4: completion code of the last command. -/
  err : BitVec 4
  /-- Bit 8. -/
  csumOk : Bool
  /-- Bit 9. -/
  ttlExp : Bool
  /-- Bit 10. -/
  lpmHit : Bool
deriving DecidableEq, Repr

/-- STATUS = 0x00000000, its value after reset (R20, R103). -/
def Status.zero : Status := { busy := false, err := 0, csumOk := false, ttlExp := false, lpmHit := false }

/-- STATUS = 0x00000001, its value from the CMD write on (R19). -/
def Status.issued : Status := { busy := true, err := 0, csumOk := false, ttlExp := false, lpmHit := false }

/-- One entry of the interface table (R28). -/
structure IfEntry where
  /-- ADDR: the interface's IPv4 address. -/
  addr : Word
  /-- V: the entry is valid. -/
  v : Bool
deriving DecidableEq, Repr

/-- One entry of the route table (R29). -/
structure RtEntry where
  /-- PREFIX: destinationPrefix. -/
  pfx : Word
  /-- MASK: subnetMask, any value. -/
  mask : Word
  /-- GATEWAY: gatewayAddr, 0 for directly connected. -/
  gateway : Word
  /-- EGRESS: egress interface index. -/
  egress : BitVec 5
  /-- V: the entry is valid. -/
  v : Bool
deriving DecidableEq, Repr

/-- An interface entry after reset (R28, R103). -/
def IfEntry.zero : IfEntry := { addr := 0, v := false }

/-- A route entry after reset (R29, R103). -/
def RtEntry.zero : RtEntry := { pfx := 0, mask := 0, gateway := 0, egress := 0, v := false }

/-- A datagram buffer (R31): the written bytes by offset, offsets strictly rising. An offset that is not listed is an
unwritten byte. -/
abbrev Memory := List Host.Cell

/-- The state of the block (R16), and three fields of the model's own. -/
structure State where
  /-- CMD (R19). -/
  cmd : Word
  /-- STATUS (R20); BUSY is also the pending command of R33. -/
  status : Status
  /-- ARG0 (R23). -/
  arg0 : Word
  /-- ARG1 (R23). -/
  arg1 : Word
  /-- ACC (R24). -/
  acc : Half
  /-- RES0 (R25). -/
  res0 : Word
  /-- RES1 (R25). -/
  res1 : Word
  /-- RES2 (R25). -/
  res2 : Word
  /-- IN_LEN (R27). -/
  inLen : Half
  /-- OUT_LEN (R27). -/
  outLen : Half
  /-- CFG0 and CFG1 hold these parameters (R7, R22). -/
  cfg : Config.Params
  /-- IFT, the interface table (R28). -/
  ift : List IfEntry
  /-- RT, the route table (R29). -/
  rt : List RtEntry
  /-- The IN buffer (R31). -/
  inBuf : Memory
  /-- The OUT buffer (R31). -/
  outBuf : Memory
  /-- The model's own: how many buffer bytes have been read, which numbers the draws of R31 (log entries 2 and 3). -/
  draws : Nat
  /-- The model's own: what the most recent host read returned (log entry 8). -/
  lastRead : Option Word
  /-- The model's own: the turns still to come, the next one first (R45, log entry 5). -/
  agenda : List Turn
deriving DecidableEq, Repr

/-- The machine right after reset for given parameters (R34, R103). The model's own fields start at 0, none and empty
(DESIGN CHOICE, log entries 2, 8, 5). -/
def State.resetWith (p : Config.Params) : State :=
  { cmd := 0, status := Status.zero, arg0 := 0, arg1 := 0, acc := 0, res0 := 0, res1 := 0, res2 := 0
    inLen := 0, outLen := 0, cfg := p
    ift := List.replicate p.nIf IfEntry.zero
    rt := List.replicate p.nRt RtEntry.zero
    inBuf := [], outBuf := []
    draws := 0, lastRead := none, agenda := [] }

/-- The machine right after reset (R34, R103), with the parameters of the spec's vectors (DESIGN CHOICE, log entry 1). -/
def State.reset : State := State.resetWith Config.vectorParams

end Sys2Proof.Machine
end

