-- ==== Sys2Proof/Machine/Ops.lean ====
section
/-!
DEFINITION. The named operations over buffers and registers: written and unwritten bytes (10_state.md R31), the reads
commands and the host make, the end of a command (`finish`, and `raise` as 60_exceptions.md R92 gives it: the block's
only form of an exception, which saves nothing and vectors nowhere, R96), issuing a command (R19) and reset (R102).
-/

namespace Sys2Proof.Machine

/-! ### Buffers as lists of written bytes -/

/-- What an offset that is not listed holds: nothing. Its byte is unwritten, and reading it yields a draw (R31). -/
def Memory.unlisted : Option Byte := none

/-- The written byte at an offset, if there is one (R31). -/
def Memory.get? : Memory → Nat → Option Byte
  | [], _ => Memory.unlisted
  | (k, v) :: m, a => if k = a then some v else Memory.get? m a

/-- Writing one byte, which makes it written (R31). The offsets stay strictly rising. -/
def Memory.set : Memory → Nat → Byte → Memory
  | [], a, v => [(a, v)]
  | (k, w) :: m, a, v =>
    if a < k then (a, v) :: (k, w) :: m
    else if a = k then (a, v) :: m
    else (k, w) :: Memory.set m a v

/-- Writing the bytes `bs` from offset `a` on, first byte first (R10). -/
def Memory.setBytes : Memory → Nat → List Byte → Memory
  | m, _, [] => m
  | m, a, b :: bs => Memory.setBytes (Memory.set m a b) (a + 1) bs

/-- Every listed offset is above `a`, and the offsets rise strictly. -/
def Memory.risingFrom : Nat → Memory → Bool
  | _, [] => true
  | a, (k, _) :: m => decide (a < k) && Memory.risingFrom k m

/-- The canonical form of a buffer: offsets strictly rising. No entry can equal what an unlisted offset reads as, since
that is no value (`Memory.unlisted`). -/
def Memory.wf : Memory → Bool
  | [] => true
  | (k, _) :: m => Memory.risingFrom k m

/-- Every listed offset is below `n` (R31: offsets `0 .. BUF_BYTES-1`). -/
def Memory.below (n : Nat) (m : Memory) : Bool := m.all fun c => decide (c.1 < n)

/-- Read number `d` of a buffer byte, at offset `a`: the written byte, or a draw (R31, U4). -/
def Memory.byteAt (m : Memory) (d a : Nat) : Byte :=
  match Memory.get? m a with
  | some v => v
  | none => Config.freeByte d

/-- Reads number `d`, `d + 1`, … of the `n` bytes from offset `a` on: `BUF[a .. a+n)` (R10). -/
def Memory.bytes (m : Memory) : (d a n : Nat) → List Byte
  | _, _, 0 => []
  | d, a, n + 1 => Memory.byteAt m d a :: Memory.bytes m (d + 1) (a + 1) n

/-! ### The buffers of a state -/

/-- The buffer a selector names (R51). -/
def State.buf (s : State) : Buf → Memory
  | .inB => s.inBuf
  | .outB => s.outBuf

/-- The state with that buffer replaced. -/
def State.setBuf (s : State) (b : Buf) (m : Memory) : State :=
  match b with
  | .inB => { s with inBuf := m }
  | .outB => { s with outBuf := m }

/-- The length register of a buffer (R27). -/
def State.lenOf (s : State) : Buf → Nat
  | .inB => s.inLen.toNat
  | .outB => s.outLen.toNat

/-- Writing bytes into a buffer. -/
def State.writeBytes (s : State) (b : Buf) (a : Nat) (bs : List Byte) : State :=
  s.setBuf b (Memory.setBytes (s.buf b) a bs)

/-- Reading `n` bytes of a buffer. Each byte read carries its own number (R31: "independently at each read"; log
entries 2 and 3). -/
def State.readBytes (s : State) (b : Buf) (a n : Nat) : List Byte × State :=
  (Memory.bytes (s.buf b) s.draws a n, { s with draws := s.draws + n })

/-- Reading one byte of a buffer. -/
def State.readByte (s : State) (b : Buf) (a : Nat) : Byte × State :=
  (Memory.byteAt (s.buf b) s.draws a, { s with draws := s.draws + 1 })

/-! ### Byte order (20_memory.md R42, R43; 00_scope.md R10) -/

/-- The 16-bit number of two bytes, most significant first: `hi·256 + lo`. -/
def word16 (hi lo : Byte) : Half := BitVec.ofNat 16 (hi.toNat * 256 + lo.toNat)

/-- The 32-bit number of four bytes, most significant first. -/
def word32 (b0 b1 b2 b3 : Byte) : Word :=
  BitVec.ofNat 32 (b0.toNat * 2 ^ 24 + b1.toNat * 2 ^ 16 + b2.toNat * 2 ^ 8 + b3.toNat)

/-- The two bytes of a 16-bit number, most significant first (`put16`). -/
def bytes16 (v : Half) : List Byte := [v.extractLsb' 8 8, v.extractLsb' 0 8]

/-- The four bytes of a 32-bit number, most significant first (`put32`). -/
def bytes32 (v : Word) : List Byte :=
  [v.extractLsb' 24 8, v.extractLsb' 16 8, v.extractLsb' 8 8, v.extractLsb' 0 8]

/-- `be16(BUF, a)` with read numbers from `d` on (R10). -/
def Memory.be16 (m : Memory) (d a : Nat) : Half :=
  word16 (Memory.byteAt m d a) (Memory.byteAt m (d + 1) (a + 1))

/-- `be32(BUF, a)` with read numbers from `d` on (R10). -/
def Memory.be32 (m : Memory) (d a : Nat) : Word :=
  word32 (Memory.byteAt m d a) (Memory.byteAt m (d + 1) (a + 1)) (Memory.byteAt m (d + 2) (a + 2))
    (Memory.byteAt m (d + 3) (a + 3))

/-- Reading a big-endian 16-bit field of a buffer. -/
def State.read16 (s : State) (b : Buf) (a : Nat) : Half × State :=
  (Memory.be16 (s.buf b) s.draws a, { s with draws := s.draws + 2 })

/-- Reading a big-endian 32-bit field of a buffer. -/
def State.read32 (s : State) (b : Buf) (a : Nat) : Word × State :=
  (Memory.be32 (s.buf b) s.draws a, { s with draws := s.draws + 4 })

/-! ### The tables -/

/-- Interface entry `i` (R28). Past the table's end, which no run reaches, it reads as an invalid entry (log entry 12). -/
def State.ifEntry (s : State) (i : Nat) : IfEntry := s.ift.getD i IfEntry.zero

/-- Route entry `i` (R29). Past the table's end, which no run reaches, it reads as an invalid entry (log entry 12). -/
def State.rtEntry (s : State) (i : Nat) : RtEntry := s.rt.getD i RtEntry.zero

/-! ### Issuing, completing, raising, resetting -/

/-- R91: the completion code of an error. -/
def ErrCode.code : ErrCode → BitVec 4
  | .illegal => 1
  | .range => 2
  | .malformed => 3
  | .notEcho => 4
  | .noIf => 5

/-- R19: a host write of `v` to CMD while BUSY = 0. R33 reads otherwise on the fields of a pending command (DEDUCED, log
entry 9). -/
def State.issue (s : State) (v : Word) : State := { s with cmd := v, status := Status.issued }

/-- R10, R92: a command ends with `STATUS.ERR <- 0` and BUSY clear; its flags stand as its rule left them. -/
def State.finish (s : State) : State := { s with status := { s.status with busy := false, err := 0 } }

/-- R92: a command that raises an error ends with `STATUS.ERR <- code`, BUSY clear, and nothing else written. -/
def State.raise (s : State) (e : ErrCode) : State :=
  { s with status := { s.status with busy := false, err := e.code } }

/-- R102: the reset input puts the state at the values of R34; a pending command is abandoned. The parameters are
constants (R22); the model's own fields go on (log entries 3, 8, 15). -/
def State.applyReset (s : State) : State :=
  { State.resetWith s.cfg with draws := s.draws, lastRead := s.lastRead, agenda := s.agenda }

end Sys2Proof.Machine
end

