-- ==== Sys2Proof/Machine/Operands.lean ====
section
/-!
DEFINITION. Operand extraction (30_encoding.md R51), the fields of an IPv4 header (40_checksum.md R60), the two
well-formedness checks (R65, R66) and the control words of table entries (10_state.md R28, R29).
-/

namespace Sys2Proof.Machine

/-! ### Register operands (R51) -/

/-- `off = ARG0[15:0]` (R51, R68). -/
def State.argOff (s : State) : Nat := (s.arg0.extractLsb' 0 16).toNat

/-- `n = ARG1[15:0]` (R51, R68). -/
def State.argCount (s : State) : Nat := (s.arg1.extractLsb' 0 16).toNat

/-- `idx = ARG0[7:0]` (R51, R86). -/
def State.argIdx (s : State) : Nat := (s.arg0.extractLsb' 0 8).toNat

/-- `zext_32` of a 16-bit value (R9). -/
def zext32 (v : Half) : Word := v.setWidth 32

/-! ### Header fields (R60) -/

/-- `IHL = BUF[0][3:0]`, the header length in 32-bit words. -/
def ihlOf (b : Byte) : Nat := (b.extractLsb' 0 4).toNat

/-- Offset of totalLength. -/
def offTotalLength : Nat := 2

/-- Offset of ttl. -/
def offTtl : Nat := 8

/-- Offset of protocol. -/
def offProtocol : Nat := 9

/-- Offset of the header checksum. -/
def offChecksum : Nat := 10

/-- Offset of sourceAddr. -/
def offSource : Nat := 12

/-- Offset of destAddr. -/
def offDest : Nat := 16

/-! ### Well-formedness checks -/

/-- R65, `wf_hdr(B)`: the IHL when the header check passes. Byte 0 is read only once `20 ≤ n ≤ BUF_BYTES` holds. -/
def State.wfHdr (s : State) (b : Buf) : Option Nat × State :=
  let n := s.lenOf b
  if n ≤ s.cfg.bufBytes ∧ 20 ≤ n then
    let (b0, s1) := s.readByte b 0
    let ihl := ihlOf b0
    (if 5 ≤ ihl ∧ 4 * ihl ≤ n then some ihl else none, s1)
  else (none, s)

/-- R66, `wf_dgram`: the IHL and totalLength L of the IN datagram when the datagram check passes. -/
def State.wfDgram (s : State) : Option (Nat × Nat) × State :=
  match s.wfHdr .inB with
  | (none, s1) => (none, s1)
  | (some ihl, s1) =>
    let (len, s2) := s1.read16 .inB offTotalLength
    (if 4 * ihl ≤ len.toNat ∧ len.toNat ≤ s.inLen.toNat then some (ihl, len.toNat) else none, s2)

/-! ### Control words of table entries -/

/-- R28: IFT[i].CTRL as read; bits 31:1 read 0. -/
def IfEntry.ctrl (e : IfEntry) : Word := BitVec.ofNat 32 e.v.toNat

/-- R28: IFT[i].CTRL written; bits 31:1 are ignored. -/
def IfEntry.withCtrl (e : IfEntry) (w : Word) : IfEntry := { e with v := w.getLsbD 0 }

/-- R29: RT[i].CTRL as read: V in bit 31, EGRESS in bits 4:0, bits 30:5 read 0. -/
def RtEntry.ctrl (e : RtEntry) : Word := BitVec.ofNat 32 (e.v.toNat * 2 ^ 31 + e.egress.toNat)

/-- R29: RT[i].CTRL written; bits 30:5 are ignored. -/
def RtEntry.withCtrl (e : RtEntry) (w : Word) : RtEntry :=
  { e with v := w.getLsbD 31, egress := w.extractLsb' 0 5 }

end Sys2Proof.Machine
end

