-- ==== Sys2Proof/Machine/Flags.lean ====
section
/-!
DEFINITION. STATUS as a word (10_state.md R20) and the three flag computations (R69, R72, R78).
-/

namespace Sys2Proof.Machine

/-- R20: STATUS as the host reads it: BUSY bit 0, ERR bits 7:4, CSUM_OK bit 8, TTL_EXP bit 9, LPM_HIT bit 10; the
reserved bits 3:1 and 31:11 read 0. -/
def Status.toWord (t : Status) : Word :=
  BitVec.ofNat 32 (t.busy.toNat + t.err.toNat * 2 ^ 4 + t.csumOk.toNat * 2 ^ 8 + t.ttlExp.toNat * 2 ^ 9 +
    t.lpmHit.toNat * 2 ^ 10)

/-- R69: `STATUS.CSUM_OK <- (st = 0) or (st = c)`, for the stored checksum `st` and the computed one `c`. -/
def State.setCsumOk (s : State) (st c : Half) : State :=
  { s with status := { s.status with csumOk := st == 0 || st == c } }

/-- R72: `STATUS.TTL_EXP <- (t = 0)`, for the decremented TTL `t`. -/
def State.setTtlExp (s : State) (t : Byte) : State :=
  { s with status := { s.status with ttlExp := t == 0 } }

/-- R78: `STATUS.LPM_HIT <- 1`. -/
def State.setLpmHit (s : State) : State := { s with status := { s.status with lpmHit := true } }

end Sys2Proof.Machine
end

