-- ==== Sys2Proof/Machine/Checksum.lean ====
section
/-!
DEFINITION. The checksum unit (40_checksum.md): the 16-bit one's-complement accumulator (R61, R62, R64) and the
commands CSUM.CLR (R67), CSUM.ADD (R68), CSUM.VAL (R69), CSUM.FIX (R71) and HDR.FWD (R72).
-/

namespace Sys2Proof.Machine

/-! ### The accumulator -/

/-- R61: one's-complement addition with end-around carry. -/
def ocadd (a w : Half) : Half :=
  let t := a.toNat + w.toNat
  BitVec.ofNat 16 (t % 0x10000 + t / 0x10000)

/-- R62: summing a byte sequence into an accumulator value, two bytes a word, most significant first; an odd trailing
byte is the high byte of a word whose low byte is 0. -/
def ocsum : Half → List Byte → Half
  | acc, [] => acc
  | acc, [hi] => ocadd acc (word16 hi 0)
  | acc, hi :: lo :: rest => ocsum (ocadd acc (word16 hi lo)) rest

/-- The one's complement `~v` of a 16-bit value (R9). -/
def complement16 (v : Half) : Half := ~~~v

/-- The header bytes with the checksum field zeroed (R64: `h[10] = h[11] = 0`). -/
def zeroChecksum (h : List Byte) : List Byte := (h.set offChecksum 0).set (offChecksum + 1) 0

/-- R64: `hsum` of header bytes. -/
def hsum (h : List Byte) : Half := ocsum 0 (zeroChecksum h)

/-- `put16(·, 10, c)` on a byte sequence that begins with a header (R71, R72). -/
def storeChecksum (h : List Byte) (c : Half) : List Byte :=
  (h.set offChecksum (c.extractLsb' 8 8)).set (offChecksum + 1) (c.extractLsb' 0 8)

/-! ### CSUM.CLR -/

/-- CSUM.CLR (R67): `ACC <- 0x0000; finish`. -/
def execCsumClr (s : State) : Host.Outcome State Fault Refusal := .next { s with acc := 0 }.finish

/-! ### CSUM.ADD -/

/-- CSUM.ADD on buffer `b` (R68). -/
def csumAdd (b : Buf) (s : State) : State :=
  if s.cfg.bufBytes < s.argOff + s.argCount then s.raise .range
  else
    let (bs, s1) := s.readBytes b s.argOff s.argCount
    let a := ocsum s.acc bs
    { s1 with acc := a, res0 := zext32 (complement16 a) }.finish

/-- CSUM.ADD in (R68, B = 0). -/
def execCsumAddIn (s : State) : Host.Outcome State Fault Refusal := .next (csumAdd .inB s)

/-- CSUM.ADD out (R68, B = 1). -/
def execCsumAddOut (s : State) : Host.Outcome State Fault Refusal := .next (csumAdd .outB s)

/-! ### CSUM.VAL -/

/-- CSUM.VAL on buffer `b` (R69): the result is reported and nothing enforces it (R70); no buffer is written; the stored checksum passes when it is 0 or equals the computed
one (90_conflicts.md C1). Bytes 10 and 11 are read once in the header and once as the stored field (DEDUCED, log
entry 4). -/
def csumVal (b : Buf) (s : State) : State :=
  match s.wfHdr b with
  | (none, s1) => s1.raise .malformed
  | (some ihl, s1) =>
    let (h, s2) := s1.readBytes b 0 (4 * ihl)
    let sum := hsum h
    let c := complement16 sum
    let (st, s3) := s2.read16 b offChecksum
    ({ s3 with acc := sum, res0 := zext32 c, res1 := zext32 st }.setCsumOk st c).finish

/-- CSUM.VAL in (R69, B = 0). -/
def execCsumValIn (s : State) : Host.Outcome State Fault Refusal := .next (csumVal .inB s)

/-- CSUM.VAL out (R69, B = 1). -/
def execCsumValOut (s : State) : Host.Outcome State Fault Refusal := .next (csumVal .outB s)

/-! ### CSUM.FIX -/

/-- CSUM.FIX on buffer `b` (R71): the recomputed checksum goes to bytes 10 and 11 of the buffer. -/
def csumFix (b : Buf) (s : State) : State :=
  match s.wfHdr b with
  | (none, s1) => s1.raise .malformed
  | (some ihl, s1) =>
    let (h, s2) := s1.readBytes b 0 (4 * ihl)
    let sum := hsum h
    let c := complement16 sum
    { s2.writeBytes b offChecksum (bytes16 c) with acc := sum, res0 := zext32 c }.finish

/-- CSUM.FIX in (R71, B = 0). -/
def execCsumFixIn (s : State) : Host.Outcome State Fault Refusal := .next (csumFix .inB s)

/-- CSUM.FIX out (R71, B = 1). -/
def execCsumFixOut (s : State) : Host.Outcome State Fault Refusal := .next (csumFix .outB s)

/-! ### HDR.FWD -/

/-- R72: `(IN[8] + 255) mod 256`, the TTL decrement; 0 wraps to 255 (92_eei_decisions.md D15). -/
def decrementTtl (t : Byte) : Byte := BitVec.ofNat 8 ((t.toNat + 255) % 256)

/-- R72: the forwarded copy: the datagram with its TTL replaced, and its checksum recomputed over the header that holds
the new TTL. The result is the checksum and the bytes. -/
def forwardedCopy (dgram : List Byte) (ihl : Nat) (t : Byte) : Half × List Byte :=
  let copy := dgram.set offTtl t
  let c := complement16 (hsum (copy.take (4 * ihl)))
  (c, storeChecksum copy c)

/-- HDR.FWD (R72, R73): IN is read, the copy is written to OUT, ACC is unchanged. -/
def hdrFwd (s : State) : State :=
  match s.wfDgram with
  | (none, s1) => s1.raise .malformed
  | (some (ihl, len), s1) =>
    let (dgram, s2) := s1.readBytes .inB 0 len
    let (ttl, s3) := s2.readByte .inB offTtl
    let t := decrementTtl ttl
    let (c, copy) := forwardedCopy dgram ihl t
    ({ s3.writeBytes .outB 0 copy with
        outLen := BitVec.ofNat 16 len, res0 := t.setWidth 32, res1 := zext32 c }.setTtlExp t).finish

/-- HDR.FWD (R72). -/
def execHdrFwd (s : State) : Host.Outcome State Fault Refusal := .next (hdrFwd s)

end Sys2Proof.Machine
end

