-- ==== Sys2Proof/Machine/IcmpSynth.lean ====
section
/-!
DEFINITION. The ICMP synthesizer (42_icmp_synth.md): the reply's IPv4 header (R81), the ICMP checksum (R82), error
replies with quoting (R83 to R87) and echo replies (R88, R89). Both commands read IN and write OUT.

The pseudocode writes every byte `OUT[0..T)` and then sums what it has just written; here the same bytes are built as a
list and written once (DEDUCED, log entry 11).
-/

namespace Sys2Proof.Machine

/-- R81: the reply's header with a given checksum field: version 4, IHL 5, TOS 0, totalLength `t`, identification,
flags and fragment offset 0, TTL 64, protocol 1. -/
def replyHeader (t : Half) (src dst : Word) (ck : Half) : List Byte :=
  [0x45, 0x00] ++ bytes16 t ++ [0, 0, 0, 0, 64, 1] ++ bytes16 ck ++ bytes32 src ++ bytes32 dst

/-- R81: the header checksum, computed with bytes 10..11 zero. -/
def replyHeaderChecksum (t : Half) (src dst : Word) : Half := complement16 (ocsum 0 (replyHeader t src dst 0))

/-- R83, R88: an ICMP message: type, code, checksum, and everything after the checksum. -/
def icmpMessage (ty co : Byte) (ck : Half) (rest : List Byte) : List Byte := [ty, co] ++ bytes16 ck ++ rest

/-- R82: the ICMP checksum, computed over the whole message with its checksum field zero. -/
def icmpChecksum (ty co : Byte) (rest : List Byte) : Half := complement16 (ocsum 0 (icmpMessage ty co 0 rest))

/-- R86, R89: writing a reply of total length `t` to OUT and its two checksums to RES0 and RES1. -/
def writeReply (s : State) (t : Nat) (src dst : Word) (ty co : Byte) (rest : List Byte) : State :=
  let len : Half := BitVec.ofNat 16 t
  let ic := icmpChecksum ty co rest
  let ipc := replyHeaderChecksum len src dst
  { s.writeBytes .outB 0 (replyHeader len src dst ipc ++ icmpMessage ty co ic rest) with
      outLen := len, res0 := zext32 ipc, res1 := zext32 ic }.finish

/-! ### ICMP.ERR -/

/-- R84: the length of the quoted payload prefix, `q = min(8, L − h)`. -/
def quoteLen (len h : Nat) : Nat := min 8 (len - h)

/-- ICMP.ERR for a type and code (R86): errors in the order E_RANGE, E_NO_IF, E_MALFORMED (R94); the source is the
triggering interface's address, the destination the original source; the quote is the IN header and at most 8 payload
bytes, after 4 padding bytes of 0 (R83, R84). -/
def icmpErr (ty co : Byte) (s : State) : State :=
  let idx := s.argIdx
  if s.cfg.nIf ≤ idx then s.raise .range
  else if (s.ifEntry idx).v = false then s.raise .noIf
  else
    match s.wfDgram with
    | (none, s1) => s1.raise .malformed
    | (some (ihl, len), s1) =>
      let h := 4 * ihl
      let q := quoteLen len h
      let (dst, s2) := s1.read32 .inB offSource
      let (hdr, s3) := s2.readBytes .inB 0 h
      let (pre, s4) := s3.readBytes .inB h q
      writeReply s4 (28 + h + q) (s.ifEntry idx).addr dst ty co ([0, 0, 0, 0] ++ hdr ++ pre)

/-- ICMP.ERR tx (R53, R86): time exceeded, type 11, code 0. -/
def execIcmpErrTx (s : State) : Host.Outcome State Fault Refusal := .next (icmpErr 11 0 s)

/-- ICMP.ERR net (R53, R86): network unreachable, type 3, code 0. -/
def execIcmpErrNet (s : State) : Host.Outcome State Fault Refusal := .next (icmpErr 3 0 s)

/-- ICMP.ERR port (R53, R86): port unreachable, type 3, code 3. -/
def execIcmpErrPort (s : State) : Host.Outcome State Fault Refusal := .next (icmpErr 3 3 s)

/-! ### ICMP.ECHO -/

/-- ICMP.ECHO (R89): the reply carries everything after the request's ICMP checksum, source and destination exchanged;
the request's code and checksum are not examined, its IP options not copied. -/
def icmpEcho (s : State) : State :=
  match s.wfDgram with
  | (none, s1) => s1.raise .malformed
  | (some (ihl, len), s1) =>
    let h := 4 * ihl
    let m := len - h
    if m < 4 then s1.raise .malformed
    else
      let (proto, s2) := s1.readByte .inB offProtocol
      let (ty, s3) := s2.readByte .inB h
      if proto ≠ 1 ∨ ty ≠ 8 then s3.raise .notEcho
      else
        let (src, s4) := s3.read32 .inB offDest
        let (dst, s5) := s4.read32 .inB offSource
        let (rest, s6) := s5.readBytes .inB (h + 4) (m - 4)
        writeReply s6 (20 + m) src dst 0 0 rest

/-- ICMP.ECHO (R89). -/
def execIcmpEcho (s : State) : Host.Outcome State Fault Refusal := .next (icmpEcho s)

end Sys2Proof.Machine
end

