-- ==== Sys2Proof/Machine/RouteLookup.lean ====
section
/-!
DEFINITION. The route lookup engine (41_route_lookup.md): match condition (R74), length (R75), tie-break (R76), next hop
(R77) and the command LPM (R78). It reads RT and the key and writes neither (R80).
-/

namespace Sys2Proof.Machine

/-- R74: entry `e` matches key `k` when it is valid and the masked key equals the masked prefix. -/
def RtEntry.matchesKey (e : RtEntry) (k : Word) : Bool := e.v && (k &&& e.mask) == (e.pfx &&& e.mask)

/-- `popcount(v)`: the number of 1 bits (R9). -/
def popcount (w : Word) : Nat := (List.range 32).countP fun i => w.getLsbD i

/-- R75: the length of an entry is the number of 1 bits of its mask. -/
def RtEntry.length (e : RtEntry) : Nat := popcount e.mask

/-- One turn of R78's loop: entry `i` replaces the best so far when it matches and is strictly longer, so the lower
index keeps a tie (R76). -/
def lpmVisit (s : State) (key : Word) (best : Option (Nat × Nat)) (i : Nat) : Option (Nat × Nat) :=
  let e := s.rtEntry i
  if e.matchesKey key then
    match best with
    | none => some (i, e.length)
    | some (j, len) => if len < e.length then some (i, e.length) else some (j, len)
  else best

/-- R78's loop `for i = 0 .. N_RT-1`: the winning entry's index, if some entry matches. -/
def lpmBest (s : State) (key : Word) : Option Nat :=
  ((List.range s.cfg.nRt).foldl (lpmVisit s key) none).map Prod.fst

/-- R77: the gateway, or the key itself when the gateway is 0. -/
def nextHop (e : RtEntry) (key : Word) : Word := if e.gateway = 0 then key else e.gateway

/-- R78: RES1 on a hit: HIT in bit 31, IDX in bits 23:16, EGRESS in bits 4:0. -/
def lpmRes1 (i : Nat) (e : RtEntry) : Word := BitVec.ofNat 32 (0x80000000 + i * 0x10000 + e.egress.toNat)

/-- R78 with the key at hand: the results of a hit or of a miss. -/
def lpmLookup (key : Word) (s : State) : State :=
  match lpmBest s key with
  | none => { s with res0 := 0, res1 := 0, res2 := 0 }.finish
  | some i =>
    let e := s.rtEntry i
    ({ s with res0 := nextHop e key, res1 := lpmRes1 i e, res2 := e.mask }.setLpmHit).finish

/-- LPM arg (R78, K = 0): the key is ARG0. -/
def execLpmArg (s : State) : Host.Outcome State Fault Refusal := .next (lpmLookup s.arg0 s)

/-- LPM dst (R78, K = 1): the key is the destAddr of the IN datagram, which IN_LEN must be able to hold. -/
def lpmDst (s : State) : State :=
  if s.cfg.bufBytes < s.inLen.toNat ∨ s.inLen.toNat < 20 then s.raise .malformed
  else
    let (key, s1) := s.read32 .inB offDest
    lpmLookup key s1

/-- LPM dst (R78, K = 1). -/
def execLpmDst (s : State) : Host.Outcome State Fault Refusal := .next (lpmDst s)

end Sys2Proof.Machine
end

