-- ==== Sys2Proof/Machine/Dispatch.lean ====
section
/-!
DEFINITION. One arm per command (30_encoding.md R54), each a direct call of the command's meaning.
-/

namespace Sys2Proof.Machine

def exec (i : Instr) (s : State) : Host.Outcome State Fault Refusal :=
  match i with
  -- checksum unit
  | .csumClr => Sys2Proof.Machine.execCsumClr s
  | .csumAddIn => Sys2Proof.Machine.execCsumAddIn s
  | .csumAddOut => Sys2Proof.Machine.execCsumAddOut s
  | .csumValIn => Sys2Proof.Machine.execCsumValIn s
  | .csumValOut => Sys2Proof.Machine.execCsumValOut s
  | .csumFixIn => Sys2Proof.Machine.execCsumFixIn s
  | .csumFixOut => Sys2Proof.Machine.execCsumFixOut s
  | .hdrFwd => Sys2Proof.Machine.execHdrFwd s
  -- route lookup engine
  | .lpmArg => Sys2Proof.Machine.execLpmArg s
  | .lpmDst => Sys2Proof.Machine.execLpmDst s
  -- ICMP synthesizer
  | .icmpErrTx => Sys2Proof.Machine.execIcmpErrTx s
  | .icmpErrNet => Sys2Proof.Machine.execIcmpErrNet s
  | .icmpErrPort => Sys2Proof.Machine.execIcmpErrPort s
  | .icmpEcho => Sys2Proof.Machine.execIcmpEcho s

end Sys2Proof.Machine
end

