-- ==== Sys2Proof/Machine/HostPort.lean ====
section
/-!
DEFINITION. The host port: the address map (20_memory.md R36), what reads return and what writes do (R40, R42; 10_state.md
R19 to R29), and the accesses the port refuses (R38; 70_reset_and_hazards.md R106).
-/

namespace Sys2Proof.Machine

/-- The registers at 0x0000 to 0x002C in the order of R36. -/
inductive Reg where
  | cmd
  | status
  | arg0
  | arg1
  | acc
  | res0
  | res1
  | res2
  | inLen
  | outLen
  | cfg0
  | cfg1
deriving DecidableEq, Repr

/-- The fields of a route entry, one word each (R29, R36). -/
inductive RtField where
  | pfx
  | mask
  | gateway
  | ctrl
deriving DecidableEq, Repr

/-- The fields of an interface entry, one word each (R28, R36). -/
inductive IfField where
  | addr
  | ctrl
deriving DecidableEq, Repr

/-- What a word address holds (R36). -/
inductive Place where
  /-- A register. -/
  | reg (r : Reg)
  /-- A word of interface entry `i`. -/
  | ift (i : Nat) (f : IfField)
  /-- A word of route entry `i`. -/
  | rt (i : Nat) (f : RtField)
  /-- The buffer word at byte offset `o`. -/
  | buf (b : Buf) (o : Nat)
  /-- Nothing: reads return 0, writes are ignored. -/
  | unmapped
deriving DecidableEq, Repr

/-- R36: the register at word `k` of the register block. -/
def regAt (k : Nat) : Option Reg :=
  match k with
  | 0 => some .cmd
  | 1 => some .status
  | 2 => some .arg0
  | 3 => some .arg1
  | 4 => some .acc
  | 5 => some .res0
  | 6 => some .res1
  | 7 => some .res2
  | 8 => some .inLen
  | 9 => some .outLen
  | 10 => some .cfg0
  | 11 => some .cfg1
  | _ => none

/-- R36: which word of an interface entry an address selects. -/
def ifFieldAt (k : Nat) : IfField := if k = 0 then .addr else .ctrl

/-- R36: which word of a route entry an address selects. -/
def rtFieldAt (k : Nat) : RtField :=
  match k with
  | 0 => .pfx
  | 1 => .mask
  | 2 => .gateway
  | _ => .ctrl

/-- R36: the address map, for a word-aligned byte address. -/
def placeOf (p : Config.Params) (a : Nat) : Place :=
  if a < 0x0030 then
    match regAt (a / 4) with
    | some r => .reg r
    | none => .unmapped
  else if 0x0100 ≤ a ∧ a ≤ 0x01FF then
    let i := (a - 0x0100) / 8
    if i < p.nIf then .ift i (ifFieldAt (a / 4 % 2)) else .unmapped
  else if 0x1000 ≤ a ∧ a ≤ 0x1FFF then
    let i := (a - 0x1000) / 16
    if i < p.nRt then .rt i (rtFieldAt (a / 4 % 4)) else .unmapped
  else if 0x4000 ≤ a ∧ a ≤ 0x7FFF then
    if a - 0x4000 < p.bufBytes then .buf .inB (a - 0x4000) else .unmapped
  else if 0x8000 ≤ a ∧ a ≤ 0xBFFF then
    if a - 0x8000 < p.bufBytes then .buf .outB (a - 0x8000) else .unmapped
  else .unmapped

/-- R22: CFG0 = zext_32(BUF_BYTES). -/
def cfg0Word (p : Config.Params) : Word := BitVec.ofNat 32 p.bufBytes

/-- R22: CFG1[15:0] = N_RT, CFG1[31:16] = N_IF. -/
def cfg1Word (p : Config.Params) : Word := BitVec.ofNat 32 (p.nIf * 2 ^ 16 + p.nRt)

/-- The value a read of a register returns (R19 to R27). -/
def State.readReg (s : State) : Reg → Word
  | .cmd => s.cmd
  | .status => s.status.toWord
  | .arg0 => s.arg0
  | .arg1 => s.arg1
  | .acc => zext32 s.acc
  | .res0 => s.res0
  | .res1 => s.res1
  | .res2 => s.res2
  | .inLen => zext32 s.inLen
  | .outLen => zext32 s.outLen
  | .cfg0 => cfg0Word s.cfg
  | .cfg1 => cfg1Word s.cfg

/-- What a write to a register does (R19, R23, R24, R27). Read-only registers ignore it (R20, R22, R25, R40); bits
31:16 of ACC, IN_LEN and OUT_LEN are ignored (R24, R27). A write to CMD issues a command (R19). -/
def State.writeReg (s : State) (r : Reg) (v : Word) : State :=
  match r with
  | .cmd => s.issue v
  | .status => s
  | .arg0 => { s with arg0 := v }
  | .arg1 => { s with arg1 := v }
  | .acc => { s with acc := v.extractLsb' 0 16 }
  | .res0 => s
  | .res1 => s
  | .res2 => s
  | .inLen => { s with inLen := v.extractLsb' 0 16 }
  | .outLen => { s with outLen := v.extractLsb' 0 16 }
  | .cfg0 => s
  | .cfg1 => s

/-- The value of a word of an interface entry (R28). -/
def IfEntry.readField (e : IfEntry) : IfField → Word
  | .addr => e.addr
  | .ctrl => e.ctrl

/-- An interface entry with one of its words written (R28). -/
def IfEntry.writeField (e : IfEntry) (f : IfField) (v : Word) : IfEntry :=
  match f with
  | .addr => { e with addr := v }
  | .ctrl => e.withCtrl v

/-- The value of a word of a route entry (R29). -/
def RtEntry.readField (e : RtEntry) : RtField → Word
  | .pfx => e.pfx
  | .mask => e.mask
  | .gateway => e.gateway
  | .ctrl => e.ctrl

/-- A route entry with one of its words written (R29). -/
def RtEntry.writeField (e : RtEntry) (f : RtField) (v : Word) : RtEntry :=
  match f with
  | .pfx => { e with pfx := v }
  | .mask => { e with mask := v }
  | .gateway => { e with gateway := v }
  | .ctrl => e.withCtrl v

/-- The value a read of a place returns, and the state after it: only the reads of buffer bytes are counted (R31, R36,
R40, R42). -/
def State.readPlace (s : State) : Place → Word × State
  | .reg r => (s.readReg r, s)
  | .ift i f => ((s.ifEntry i).readField f, s)
  | .rt i f => ((s.rtEntry i).readField f, s)
  | .buf b o => s.read32 b o
  | .unmapped => (0, s)

/-- What a write to a place does (R30, R36, R40, R42). -/
def State.writePlace (s : State) (p : Place) (v : Word) : State :=
  match p with
  | .reg r => s.writeReg r v
  | .ift i f => { s with ift := s.ift.set i ((s.ifEntry i).writeField f v) }
  | .rt i f => { s with rt := s.rt.set i ((s.rtEntry i).writeField f v) }
  | .buf b o => s.writeBytes b o (bytes32 v)
  | .unmapped => s

/-- `MemRead(a, 4)` (R10): the value is what the host receives. -/
def State.memRead (s : State) (a : PortAddr) : State :=
  let (v, s1) := s.readPlace (placeOf s.cfg a.toNat)
  { s1 with lastRead := some v }

/-- `MemWrite(a, 4, v)` (R10). -/
def State.memWrite (s : State) (a : PortAddr) (v : Word) : State := s.writePlace (placeOf s.cfg a.toNat) v

/-- R106: while BUSY = 1 the only access a host may make is a read of STATUS. -/
def isStatusRead : HostAccess → Bool
  | .read a _ => a == 0x0004
  | .write _ _ _ => false

/-- An access inside the port's protocol takes effect (R45). -/
def State.perform (s : State) : HostAccess → State
  | .read a _ => s.memRead a
  | .write a _ v => s.memWrite a v

/-- One host access (R38, R98, R106): refused outside the port's protocol. Which refusal is named where several apply
is a DESIGN CHOICE (log entry 10), safe. -/
def hostAccess (x : HostAccess) (s : State) : Host.Outcome State Fault Refusal :=
  if x.widthOk = false then .refused .wrongWidth
  else if x.aligned = false then .refused .misaligned
  else if s.status.busy = true ∧ isStatusRead x = false then .refused .busyHazard
  else .next (s.perform x)

end Sys2Proof.Machine
end

