-- ==== Sys2Proof/Machine/Step.lean ====
section
/-!
DEFINITION. One step of the machine (00_scope.md R13, 20_memory.md R45): the next turn of the agenda; a Block step
executes the command in CMD when BUSY = 1. There is no clock (70_reset_and_hazards.md R113, log entry 17).
-/

namespace Sys2Proof.Machine

/-- R13, R55: the Block executes the pending command in CMD; an illegal word completes with E_ILLEGAL. What an earlier
command reported stops none (R70, R108: the block checks no order of commands). -/
def runCommand (s : State) : Host.Outcome State Fault Refusal :=
  match decode s.cmd with
  | .ok i => exec i s
  | .error _ => .next (s.raise .illegal)

/-- R13, R45 (b): the Block steps only while BUSY = 1; else its turn passes (log entry 6). -/
def blockTurn (s : State) : Host.Outcome State Fault Refusal :=
  if s.status.busy then runCommand s else .next s

/-- One step: the agenda's next turn. With no turn left the host is silent, and the Block takes its step (R47). -/
def step (s : State) : Host.Outcome State Fault Refusal :=
  match s.agenda with
  | [] => blockTurn s
  | .block :: rest => blockTurn { s with agenda := rest }
  | .host x :: rest => hostAccess x { s with agenda := rest }
  | .reset :: rest => .next ({ s with agenda := rest } : State).applyReset

/-- The state in which a CMD write of the table's word has just taken effect and the Block's turn is next (R19, R33):
the word is in CMD and BUSY = 1. A state with turns still to come gets a Block turn before them (log entry 7). -/
def State.withFetchWord (s : State) (nbits w : Nat) : State :=
  let t := s.issue (BitVec.ofNat 32 (w % 2 ^ nbits))
  match s.agenda with
  | [] => t
  | x :: rest => { t with agenda := .block :: x :: rest }

end Sys2Proof.Machine
end

