-- ==== Sys2Proof/Machine/HostScript.lean ====
section
/-!
DEFINITION. Assembler text (30_encoding.md R57) and host scripts (R58, R59): the named addresses, the statements and
their expansion into host accesses. A script is no part of the state; its turns are.
-/

namespace Sys2Proof.Machine

/-- The assembler text of a command (R57). -/
def asmText (i : Instr) : String :=
  match i with
  | .csumClr => "csum.clr"
  | .csumAddIn => "csum.add in"
  | .csumAddOut => "csum.add out"
  | .csumValIn => "csum.val in"
  | .csumValOut => "csum.val out"
  | .csumFixIn => "csum.fix in"
  | .csumFixOut => "csum.fix out"
  | .hdrFwd => "hdr.fwd"
  | .lpmArg => "lpm arg"
  | .lpmDst => "lpm dst"
  | .icmpErrTx => "icmp.err tx"
  | .icmpErrNet => "icmp.err net"
  | .icmpErrPort => "icmp.err port"
  | .icmpEcho => "icmp.echo"

/-- Assembling a mnemonic gives its word (R57). -/
def assemble (t : String) : Option Word := (Instr.all.find? fun i => asmText i == t).map encode

/-- A dotted quad as a number (R9). -/
def dottedQuad (a b c d : Byte) : Word := word32 a b c d

/-- R36: the byte address of a register. -/
def Reg.addr : Reg → Nat
  | .cmd => 0x0000
  | .status => 0x0004
  | .arg0 => 0x0008
  | .arg1 => 0x000C
  | .acc => 0x0010
  | .res0 => 0x0014
  | .res1 => 0x0018
  | .res2 => 0x001C
  | .inLen => 0x0020
  | .outLen => 0x0024
  | .cfg0 => 0x0028
  | .cfg1 => 0x002C

/-- R28: the offset of a word in an interface entry. -/
def IfField.offset : IfField → Nat
  | .addr => 0
  | .ctrl => 4

/-- R29: the offset of a word in a route entry. -/
def RtField.offset : RtField → Nat
  | .pfx => 0
  | .mask => 4
  | .gateway => 8
  | .ctrl => 12

/-- R36, R59: the host address of a buffer's first byte. -/
def bufBase : Buf → Nat
  | .inB => 0x4000
  | .outB => 0x8000

/-- An operand `X` of a script statement (R58). -/
inductive ScriptAddr where
  /-- A register name. -/
  | reg (r : Reg)
  /-- `IFT[i].ADDR` or `IFT[i].CTRL`. -/
  | ift (i : Nat) (f : IfField)
  /-- `RT[i].PREFIX`, `.MASK`, `.GATEWAY` or `.CTRL`. -/
  | rt (i : Nat) (f : RtField)
  /-- A numeric address. -/
  | num (a : PortAddr)
deriving DecidableEq, Repr

/-- `addr(X)` (R28, R29, R36, R58). An index whose address passes 0xFFFF is taken modulo 2^16 (DESIGN CHOICE, log entry
18). -/
def ScriptAddr.addr : ScriptAddr → PortAddr
  | .reg r => BitVec.ofNat 16 r.addr
  | .ift i f => BitVec.ofNat 16 (0x0100 + 8 * i + f.offset)
  | .rt i f => BitVec.ofNat 16 (0x1000 + 16 * i + f.offset)
  | .num a => a

/-- A statement of a host script (R58, R59). `polls` of `wait` and `doCmd` says how many reads of STATUS find BUSY = 1
before the Block steps: R47 bounds it by no number, so while a command is pending every number is a script; where none is
pending, R59's loop makes one read, so only `polls = 0` stands for `wait` there (DESIGN CHOICE, log entry 7). -/
inductive Stmt where
  /-- `wr X, v`. -/
  | wr (x : ScriptAddr) (v : Word)
  /-- `rd X`, with the value a program may annotate, which makes no access. -/
  | rd (x : ScriptAddr) (expected : Option Word)
  /-- `issue m`. -/
  | issue (i : Instr)
  /-- `wait`. -/
  | wait (polls : Nat)
  /-- `do m`. -/
  | doCmd (i : Instr) (polls : Nat)
  /-- `ldif i, a`. -/
  | ldif (i : Nat) (a : Word)
  /-- `ldroute i, p, m, g, e`. -/
  | ldroute (i : Nat) (p m g e : Word)
  /-- `wrbuf in|out, o, b0 b1 …`. -/
  | wrbuf (b : Buf) (o : Nat) (bs : List Byte)
  /-- `ldin b0 b1 …`. -/
  | ldin (bs : List Byte)
deriving DecidableEq, Repr

/-- `MemWrite(a, 4, v)` as a turn (R10, R58). -/
def wrTurn (a : PortAddr) (v : Word) : Turn := .host (.write a 4 v)

/-- `MemRead(a, 4)` as a turn (R10, R58). -/
def rdTurn (a : PortAddr) : Turn := .host (.read a 4)

/-- R59, `wait`: reads of STATUS until one finds BUSY = 0; the Block steps after the first `polls` of them. With no
command pending the first read finds BUSY = 0 and R59's loop ends with it: `polls` must be 0 there, and any other number
makes `polls` reads more than `wait` does (DESIGN CHOICE, log entry 7). -/
def waitTurns (polls : Nat) : List Turn :=
  List.replicate polls (rdTurn 0x0004) ++ [.block, rdTurn 0x0004]

/-- R58, `issue m`: the CMD write alone, with no turn for the Block (DESIGN CHOICE, log entry 19). -/
def issueTurn (i : Instr) : Turn := wrTurn 0x0000 (encode i)

/-- R59, `wrbuf`: one word write for each four bytes, the last word padded with 00. R59 binds `o` only to a multiple of 4.
Where an address passes 0xFFFF there is no port address: it is taken modulo 2^16, so that `wrbuf out, 0x8000` writes CMD
(DESIGN CHOICE, log entry 18). -/
def wrbufTurns (a : Nat) : List Byte → List Turn
  | [] => []
  | [b0] => [wrTurn (BitVec.ofNat 16 a) (word32 b0 0 0 0)]
  | [b0, b1] => [wrTurn (BitVec.ofNat 16 a) (word32 b0 b1 0 0)]
  | [b0, b1, b2] => [wrTurn (BitVec.ofNat 16 a) (word32 b0 b1 b2 0)]
  | b0 :: b1 :: b2 :: b3 :: rest => wrTurn (BitVec.ofNat 16 a) (word32 b0 b1 b2 b3) :: wrbufTurns (a + 4) rest

/-- R58, R59: the accesses a statement stands for, in order. The values `0x80000000 + e` of `ldroute` and `n` of `ldin`
are taken modulo 2^32, and an `o` that is no multiple of 4 expands all the same (DESIGN CHOICE, log entry 18). -/
def Stmt.expand : Stmt → List Turn
  | .wr x v => [wrTurn x.addr v]
  | .rd x _ => [rdTurn x.addr]
  | .issue i => [issueTurn i]
  | .wait polls => waitTurns polls
  | .doCmd i polls => issueTurn i :: waitTurns polls
  | .ldif i a => [wrTurn (ScriptAddr.ift i .addr).addr a, wrTurn (ScriptAddr.ift i .ctrl).addr 1]
  | .ldroute i p m g e =>
    [wrTurn (ScriptAddr.rt i .pfx).addr p, wrTurn (ScriptAddr.rt i .mask).addr m,
      wrTurn (ScriptAddr.rt i .gateway).addr g, wrTurn (ScriptAddr.rt i .ctrl).addr (0x80000000 + e)]
  | .wrbuf b o bs => wrbufTurns (bufBase b + o) bs
  | .ldin bs =>
    wrbufTurns (bufBase .inB) bs ++ [wrTurn (ScriptAddr.reg .inLen).addr (BitVec.ofNat 32 bs.length)]

/-- The turns of a script. R45 lets the Block's step fall between any two accesses after the CMD write; a script's own
turns hold one only inside `wait`, so in `issue m; rd STATUS` the read finds BUSY = 1 (DESIGN CHOICE, log entry 19). An
agenda with the Block's turn elsewhere is another order of R45, and `step` takes any. -/
def scriptTurns (p : List Stmt) : List Turn := p.flatMap Stmt.expand

/-- A state that is about to carry out a script (log entry 7). -/
def State.withScript (s : State) (p : List Stmt) : State := { s with agenda := scriptTurns p ++ s.agenda }

end Sys2Proof.Machine
end

