-- ==== Sys2Proof/Safety.lean ====
section
/-!
DEFINITION. What a good state is (the invariant of the block), and the terms the statements use: written bytes, the
words of a byte sequence, the two well-formedness checks as propositions, the best route, and the bytes of a reply,
each written from its rule and not from the machine's own functions.
-/

namespace Sys2Proof.Machine

/-! ### The invariant -/

/-- R28, R29, R31: the tables have their N_IF and N_RT entries and every written byte lies inside its buffer; the
buffers are in their canonical form. -/
abbrev State.Sized (s : State) : Prop :=
  s.cfg.legal = true ∧ s.ift.length = s.cfg.nIf ∧ s.rt.length = s.cfg.nRt ∧
    Memory.wf s.inBuf = true ∧ Memory.below s.cfg.bufBytes s.inBuf = true ∧
    Memory.wf s.outBuf = true ∧ Memory.below s.cfg.bufBytes s.outBuf = true

/-- R20, R91: STATUS describes only the command in CMD: while it is pending only BUSY is set (R33 reads otherwise: DEDUCED,
log entry 9); a reserved completion code
is never produced; a flag is set only with code 0 and only by the command its rule names; code 1 is only for an
illegal word. -/
abbrev State.StatusMeansCmd (s : State) : Prop :=
  (s.status.busy = true → s.status = Status.issued) ∧
  s.status.err.toNat ≤ 5 ∧
  (s.status.csumOk = true →
    s.status.err = 0 ∧ (s.cmd = encode .csumValIn ∨ s.cmd = encode .csumValOut)) ∧
  (s.status.ttlExp = true → s.status.err = 0 ∧ s.cmd = encode .hdrFwd) ∧
  (s.status.lpmHit = true → s.status.err = 0 ∧ (s.cmd = encode .lpmArg ∨ s.cmd = encode .lpmDst)) ∧
  (s.status.err = 1 → s.cmd ∉ Instr.all.map encode)

/-- The invariant of the block. -/
abbrev State.Inv (s : State) : Prop := s.Sized ∧ s.StatusMeansCmd

/-! ### Buffers -/

/-- The written byte of buffer `b` at offset `a`, if it is written (R31). -/
abbrev State.cell (s : State) (b : Buf) (a : Nat) : Option Byte := Memory.get? (s.buf b) a

/-- What read number `d` of buffer `b` at offset `a` returns: the written byte, else the draw of that number (R31). -/
abbrev State.byteOf (s : State) (b : Buf) (d a : Nat) : Byte := (s.cell b a).getD (Config.freeByte d)

/-- Buffer `b` holds the bytes `bs`, all written, from offset `a` on. -/
abbrev State.Holds (s : State) (b : Buf) (a : Nat) (bs : List Byte) : Prop :=
  ∀ k < bs.length, s.cell b (a + k) = bs[k]?

/-- STATUS when the pending command completes with code `e` and no flag of its own (R92, R10). -/
abbrev State.ended (s : State) (e : BitVec 4) : Status := { s.status with busy := false, err := e }

/-! ### One's-complement sums -/

/-- The 16-bit words of a byte sequence as numbers, most significant byte first, an odd last byte padded with a zero low
byte (R62). -/
def wordsOf : List Byte → List Nat
  | [] => []
  | [hi] => [hi.toNat * 256]
  | hi :: lo :: rest => (hi.toNat * 256 + lo.toNat) :: wordsOf rest

/-- R63, laws 1 and 2: `r` is the one's-complement sum of `acc` and the words: 0 only when all are 0, else the
representative in 1 .. 0xFFFF of their sum modulo 0xFFFF. -/
abbrev IsOcSum (r acc : Half) (ws : List Nat) : Prop :=
  (r = 0 ↔ acc = 0 ∧ ws.sum = 0) ∧ r.toNat % 0xFFFF = (acc.toNat + ws.sum) % 0xFFFF

/-- R63, law 2: folding `x <- (x mod 0x10000) + (x div 0x10000)` until `x ≤ 0xFFFF`, at most `fuel` times. -/
def foldCarries : (fuel x : Nat) → Nat
  | 0, x => x
  | fuel + 1, x => if x ≤ 0xFFFF then x else foldCarries fuel (x % 0x10000 + x / 0x10000)

/-- The words of a header with its checksum field, word 5, zeroed (R64). -/
abbrev headerWords (h : List Byte) : List Nat := (wordsOf h).set 5 0

/-! ### The checks -/

/-- The IHL the header check yields: the low nibble of byte 0, which the check reads first (R60, R65). -/
abbrev State.ihl (s : State) (b : Buf) : Nat := (Memory.byteAt (s.buf b) s.draws 0).toNat % 16

/-- R65: `wf_hdr(B)` passes. -/
abbrev State.HeaderOk (s : State) (b : Buf) : Prop :=
  s.lenOf b ≤ s.cfg.bufBytes ∧ 20 ≤ s.lenOf b ∧ 5 ≤ s.ihl b ∧ 4 * s.ihl b ≤ s.lenOf b

/-- The totalLength L the datagram check yields (R60, R66). -/
abbrev State.totalLength (s : State) : Nat :=
  (Memory.byteAt s.inBuf (s.draws + 1) 2).toNat * 256 + (Memory.byteAt s.inBuf (s.draws + 2) 3).toNat

/-- R66: `wf_dgram` passes. -/
abbrev State.DatagramOk (s : State) : Prop :=
  s.HeaderOk .inB ∧ 4 * s.ihl .inB ≤ s.totalLength ∧ s.totalLength ≤ s.inLen.toNat

/-! ### Commands by operand -/

/-- `csum.add` on a buffer. -/
def csumAddOf : Buf → Instr
  | .inB => .csumAddIn
  | .outB => .csumAddOut

/-- `csum.val` on a buffer. -/
def csumValOf : Buf → Instr
  | .inB => .csumValIn
  | .outB => .csumValOut

/-- `csum.fix` on a buffer. -/
def csumFixOf : Buf → Instr
  | .inB => .csumFixIn
  | .outB => .csumFixOut

/-- The error replies with their ICMP type and code (R53). -/
def icmpErrTable : List (Instr × Byte × Byte) :=
  [(.icmpErrTx, 11, 0), (.icmpErrNet, 3, 0), (.icmpErrPort, 3, 3)]

/-! ### Routes -/

/-- R74: entry `i` of RT matches key `k`. -/
abbrev State.RouteMatches (s : State) (k : Word) (i : Nat) : Prop :=
  i < s.cfg.nRt ∧ (s.rtEntry i).v = true ∧ k &&& (s.rtEntry i).mask = (s.rtEntry i).pfx &&& (s.rtEntry i).mask

/-- R75: the length of entry `i`. -/
abbrev State.routeLength (s : State) (i : Nat) : Nat := popcount (s.rtEntry i).mask

/-- R75, R76: entry `i` wins for key `k`: it matches, and every other matching entry is shorter, or as long and later. -/
abbrev State.BestRoute (s : State) (k : Word) (i : Nat) : Prop :=
  s.RouteMatches k i ∧
    ∀ j, s.RouteMatches k j →
      s.routeLength j ≤ s.routeLength i ∧ (s.routeLength j = s.routeLength i → i ≤ j)

/-- R78: command `i` looks up key `k`: `lpm arg` the whole of ARG0, `lpm dst` the destAddr in IN where IN_LEN is in
20 .. BUF_BYTES. -/
abbrev State.LooksUp (s : State) (i : Instr) (k : Word) : Prop :=
  (i = .lpmArg ∧ k = s.arg0) ∨
    (i = .lpmDst ∧ 20 ≤ s.inLen.toNat ∧ s.inLen.toNat ≤ s.cfg.bufBytes ∧ k = Memory.be32 s.inBuf s.draws 16)

/-! ### Replies -/

/-- The bytes of a reply datagram (R81, R83, R88): the 20-byte IPv4 header, then the ICMP type, code and checksum, then
`rest`. -/
def replyBytes (t : Half) (ipc : Half) (src dst : Word) (ty co : Byte) (ic : Half) (rest : List Byte) : List Byte :=
  [0x45, 0x00, t.extractLsb' 8 8, t.extractLsb' 0 8, 0, 0, 0, 0, 64, 1, ipc.extractLsb' 8 8, ipc.extractLsb' 0 8,
    src.extractLsb' 24 8, src.extractLsb' 16 8, src.extractLsb' 8 8, src.extractLsb' 0 8,
    dst.extractLsb' 24 8, dst.extractLsb' 16 8, dst.extractLsb' 8 8, dst.extractLsb' 0 8,
    ty, co, ic.extractLsb' 8 8, ic.extractLsb' 0 8] ++ rest

/-- R81, R82: `ipc` is the complement of the sum of the reply's header, `ic` the complement of the sum of its ICMP
message, each computed with its own field zero. -/
abbrev ReplyChecksums (t : Half) (ipc : Half) (src dst : Word) (ty co : Byte) (ic : Half) (rest : List Byte) : Prop :=
  IsOcSum (~~~ipc) 0 (wordsOf ((replyBytes t 0 src dst ty co 0 rest).take 20)) ∧
    IsOcSum (~~~ic) 0 (wordsOf ((replyBytes t 0 src dst ty co 0 rest).drop 20))

end Sys2Proof.Machine
end

