-- ==== Sys2Proof/Certificates/Slice0/Obligations.lean ====
section
/-!
DEFINITION. The statements for the provers, from the numbered rules of spec/. A command that completes is described by
its whole next state, `{ s with … }`, so its frame is part of the statement; where it stores, the bytes stored to are
named and every other byte reads as before.

`draws` and the numbers of the reads, wherever they appear below, are the model's own (log entries 2, 3 and 4), and so are
`agenda` (log entries 5, 6 and 7) and `lastRead` (log entry 8): a statement that mentions one rests on that choice for that
field alone. Which value a draw has is open, and every statement holds for every value.
-/

open Sys2Proof Sys2Proof.Machine

/-! ### Encoding -/

/-- R50 to R54: decoding the word of a command gives that command back, and a word that decodes is that command's word:
no bit of a word is dropped. -/
def Obligations.DecodeEncodeAgree : Prop :=
  ∀ (i : Instr), decode (encode i) = .ok i ∧ ∀ w, decode w = .ok i → w = encode i

/-- R54: the fourteen words written out decode to their commands. -/
def Obligations.WordsWrittenOutDecode : Prop :=
  ∀ p ∈ ([(0x00000001, .csumClr), (0x00000002, .csumAddIn), (0x00000102, .csumAddOut), (0x00000003, .csumValIn),
      (0x00000103, .csumValOut), (0x00000004, .csumFixIn), (0x00000104, .csumFixOut), (0x00000005, .hdrFwd),
      (0x00000010, .lpmArg), (0x00000110, .lpmDst), (0x00000020, .icmpErrTx), (0x00000120, .icmpErrNet),
      (0x00000220, .icmpErrPort), (0x00000021, .icmpEcho)] : List (Word × Instr)),
    decode p.1 = .ok p.2

/-- R55: which words are illegal, field by field; an illegal word is still issued by the CMD write, and the Block's
step then completes it with E_ILLEGAL and changes nothing but STATUS. That the CMD write leaves ERR and the flags 0 beside
BUSY = 1 is the model's choice of R19 over R33 (log entry 9). -/
def Obligations.IllegalWordsReportOnlyEIllegal : Prop :=
  ∀ (w : Word),
    ((∃ e, decode w = .error e) ↔
      (w.toNat % 256 ∉ [0x01, 0x02, 0x03, 0x04, 0x05, 0x10, 0x20, 0x21] ∨
        w.toNat / 1024 ≠ 0 ∨
        (w.toNat % 256 ∈ [0x02, 0x03, 0x04, 0x10] ∧ w.toNat / 256 % 4 ∈ [2, 3]) ∨
        (w.toNat % 256 ∈ [0x01, 0x05, 0x21] ∧ w.toNat / 256 % 4 ≠ 0) ∨
        (w.toNat % 256 = 0x20 ∧ w.toNat / 256 % 4 = 3))) ∧
    ∀ (s : State), (∃ e, decode w = .error e) → s.status.busy = false →
      hostAccess (.write 0x0000 4 w) s = .next { s with cmd := w, status := Status.issued } ∧
      blockTurn { s with cmd := w, status := Status.issued } =
        .next { s with cmd := w, status := { Status.zero with err := 1 } }

/-- R57: assembling the text of a mnemonic gives the command's word, and the fourteen texts are distinct. -/
def Obligations.AssemblingATextGivesItsWord : Prop :=
  (∀ i, assemble (asmText i) = some (encode i)) ∧ ∀ i j, asmText i = asmText j → i = j

/-! ### The step, the agents, reset -/

/-- R13, R55: when a command is pending and its word decodes, a Block step is the command's execution: at once when no
turn is left, else at a Block turn, which leaves the agenda (the agenda is the model's own, log entries 5 and 6);
afterwards BUSY is clear. -/
def Obligations.StepRunsTheDecodedCommand : Prop :=
  ∀ (s : State) (i : Instr), s.status.busy = true → decode s.cmd = .ok i →
    (s.agenda = [] → step s = exec i s) ∧
    (∀ rest, s.agenda = .block :: rest → step s = exec i { s with agenda := rest }) ∧
    ∀ t, exec i s = .next t → t.status.busy = false

/-- R7, R20, R28, R29, R31, R91: every step keeps the invariant of the block: legal parameters, tables of their size,
buffers in their canonical form and inside BUF_BYTES, and a STATUS that describes only the command in CMD. That a pending
command has ERR and the flags 0 is the model's choice of R19 and R20 over R33 (log entry 9). -/
def Obligations.EveryStepKeepsTheInvariant : Prop :=
  ∀ (s t : State), s.Inv → step s = .next t → t.Inv

/-- R7, R34: the state after reset has the invariant, for any legal parameters. -/
def Obligations.ResetHasTheInvariant : Prop :=
  ∀ (p : Config.Params), p.legal = true → (State.resetWith p).Inv

/-- R34, R103: what reset leaves, for any parameters. -/
def Obligations.ResetLeavesEveryRegisterZero : Prop :=
  ∀ (p : Config.Params), let s := State.resetWith p
    s.cmd = 0 ∧ s.status.toWord = 0 ∧ s.arg0 = 0 ∧ s.arg1 = 0 ∧ s.acc = 0 ∧ s.res0 = 0 ∧ s.res1 = 0 ∧ s.res2 = 0 ∧
    s.inLen = 0 ∧ s.outLen = 0 ∧ s.cfg = p ∧ s.status.busy = false ∧
    s.ift.length = p.nIf ∧ s.rt.length = p.nRt ∧
    (∀ i, s.ifEntry i = { addr := 0, v := false }) ∧
    (∀ i, s.rtEntry i = { pfx := 0, mask := 0, gateway := 0, egress := 0, v := false }) ∧
    ∀ b a, s.cell b a = none

/-- R102: a reset turn puts every register, table and buffer at its reset value, whatever was pending, and keeps the
parameters; that the model's own fields go on is its choice (log entries 3, 8 and 15). -/
def Obligations.ResetTurnAbandonsThePendingCommand : Prop :=
  ∀ (s : State) (rest : List Turn), s.agenda = .reset :: rest →
    ∃ t, step s = .next t ∧ t.status.busy = false ∧ t.agenda = rest ∧
      t = { State.resetWith s.cfg with draws := s.draws, lastRead := s.lastRead, agenda := rest }

/-- R38, R98, R106: a step is refused exactly when the next turn is a host access that is not 32 bits wide, is
misaligned, or, while BUSY = 1, is anything but a read of STATUS; every other step has a next state, and none faults. That
the turns stand in an agenda, that a Block turn with nothing pending and a step with no turn left have a next state, and
that `Fault` is empty, are the model's own (log entries 5, 6 and 16). -/
def Obligations.OnlyOutOfProtocolAccessesAreRefused : Prop :=
  ∀ (s : State),
    ((∃ r, step s = .refused r) ↔
      ∃ x rest, s.agenda = .host x :: rest ∧
        (x.width ≠ 4 ∨ x.addr.toNat % 4 ≠ 0 ∨ (s.status.busy = true ∧ ∀ w, x ≠ .read 0x0004 w))) ∧
    ((∃ t, step s = .next t) ∨ ∃ r, step s = .refused r)

/-- R46, R47: a pending command completes: after any number of STATUS reads, each of which answers BUSY = 1, the Block's
step leaves BUSY = 0 (that the Block steps when no turn is left is the model's choice, log entry 6). -/
def Obligations.PendingCommandCompletesUnderPolling : Prop :=
  ∀ (k : Nat) (s : State) (rest : List Turn), s.status.busy = true →
    s.agenda = List.replicate k (.host (.read 0x0004 4)) ++ rest → (rest = [] ∨ ∃ r, rest = .block :: r) →
    (∃ t, Host.Core.run Sys2Proof.core (k + 1) s = .next t ∧ t.status.busy = false) ∧
    ∀ j, j < k → ∃ u w, Host.Core.run Sys2Proof.core (j + 1) s = .next u ∧ u.lastRead = some w ∧ w.getLsbD 0 = true

/-- R92: a command that ends with a completion code other than 0 has written STATUS.ERR and cleared BUSY and has written
nothing else (the model's own count of buffer reads apart); the flags are as they stood, so 0 from the issue on. The same
holds of an illegal word, whose code is 1. -/
def Obligations.ErrorWritesOnlyStatus : Prop :=
  (∀ (i : Instr) (s t : State), exec i s = .next t → t.status.err ≠ 0 →
    t = { s with status := s.ended t.status.err, draws := t.draws } ∧ t.status.err.toNat ≤ 5 ∧ t.status.err ≠ 1) ∧
  ∀ (s : State) (e : DecodeError), s.status.busy = true → decode s.cmd = .error e →
    blockTurn s = .next { s with status := s.ended 1 }

/-- R23, R24, R25, R26, R27, R29, R80: what no command writes, and which commands alone write the accumulator, a result
register, a length register, a flag or a buffer. -/
def Obligations.CommandsWriteOnlyTheirResults : Prop :=
  ∀ (i : Instr) (s t : State), exec i s = .next t →
    t.cmd = s.cmd ∧ t.arg0 = s.arg0 ∧ t.arg1 = s.arg1 ∧ t.inLen = s.inLen ∧ t.cfg = s.cfg ∧ t.ift = s.ift ∧
    t.rt = s.rt ∧ t.agenda = s.agenda ∧ t.lastRead = s.lastRead ∧
    (t.acc ≠ s.acc → i ∈ [.csumClr, .csumAddIn, .csumAddOut, .csumValIn, .csumValOut, .csumFixIn, .csumFixOut]) ∧
    (t.res0 ≠ s.res0 → i ≠ .csumClr) ∧
    (t.res1 ≠ s.res1 → i ∈ [.csumValIn, .csumValOut, .hdrFwd, .lpmArg, .lpmDst, .icmpErrTx, .icmpErrNet,
      .icmpErrPort, .icmpEcho]) ∧
    (t.res2 ≠ s.res2 → i ∈ [.lpmArg, .lpmDst]) ∧
    (t.outLen ≠ s.outLen → i ∈ [.hdrFwd, .icmpErrTx, .icmpErrNet, .icmpErrPort, .icmpEcho]) ∧
    (t.status.csumOk ≠ s.status.csumOk → i ∈ [.csumValIn, .csumValOut]) ∧
    (t.status.ttlExp ≠ s.status.ttlExp → i = .hdrFwd) ∧
    (t.status.lpmHit ≠ s.status.lpmHit → i ∈ [.lpmArg, .lpmDst]) ∧
    (∀ a, t.cell .inB a ≠ s.cell .inB a → i = .csumFixIn ∧ (a = 10 ∨ a = 11)) ∧
    ∀ a, t.cell .outB a ≠ s.cell .outB a →
      (i = .csumFixOut ∧ (a = 10 ∨ a = 11)) ∨
      (i ∈ [.hdrFwd, .icmpErrTx, .icmpErrNet, .icmpErrPort, .icmpEcho] ∧ a < t.outLen.toNat)

/-- R31: no two reads of buffer bytes share a draw: a read of `n` bytes takes the numbers `draws` to `draws + n - 1`, one
for each byte, and leaves the count at `draws + n`, with nothing else changed; and no step takes the count back, so no
later read takes one of those numbers again (the count is the model's own, log entries 2 and 3). -/
def Obligations.ReadNumbersAreNeverReused : Prop :=
  (∀ (s : State) (b : Buf) (a : Nat), let v := s.byteOf b
    (∀ n, ∃ bs : List Byte, s.readBytes b a n = (bs, { s with draws := s.draws + n }) ∧ bs.length = n ∧
      ∀ k < n, bs[k]? = some (v (s.draws + k) (a + k))) ∧
    s.readByte b a = (v s.draws a, { s with draws := s.draws + 1 }) ∧
    (∃ x : Half, s.read16 b a = (x, { s with draws := s.draws + 2 }) ∧
      x.toNat = (v s.draws a).toNat * 2 ^ 8 + (v (s.draws + 1) (a + 1)).toNat) ∧
    ∃ x : Word, s.read32 b a = (x, { s with draws := s.draws + 4 }) ∧
      x.toNat = (v s.draws a).toNat * 2 ^ 24 + (v (s.draws + 1) (a + 1)).toNat * 2 ^ 16 +
        (v (s.draws + 2) (a + 2)).toNat * 2 ^ 8 + (v (s.draws + 3) (a + 3)).toNat) ∧
  ∀ (s t : State), step s = .next t → s.draws ≤ t.draws

/-! ### The host port -/

/-- R38, R45, R106: a host turn inside the port's protocol takes effect at once: a 32-bit aligned read, of STATUS alone
while BUSY = 1, and a 32-bit aligned write while BUSY = 0 (that turns wait in the agenda is the model's choice, log
entry 5). -/
def Obligations.HostTurnInsideTheProtocolTakesEffect : Prop :=
  ∀ (s : State) (a : PortAddr) (rest : List Turn), a.toNat % 4 = 0 →
    (s.agenda = .host (.read a 4) :: rest → (s.status.busy = true → a = 0x0004) →
      step s = .next (({ s with agenda := rest } : State).memRead a)) ∧
    ∀ v, s.agenda = .host (.write a 4 v) :: rest → s.status.busy = false →
      step s = .next (({ s with agenda := rest } : State).memWrite a v)

/-- R36: every word address the map names selects its place, every other address is unmapped, and a host read of an
unmapped address returns 0 and changes nothing, a host write to it changes nothing. -/
def Obligations.AddressMapSelectsEveryPlace : Prop :=
  ∀ (p : Config.Params), p.legal = true →
    (∀ r : Reg, placeOf p r.addr = .reg r) ∧
    (∀ i f, i < p.nIf → placeOf p (0x0100 + 8 * i + f.offset) = .ift i f) ∧
    (∀ i f, i < p.nRt → placeOf p (0x1000 + 16 * i + f.offset) = .rt i f) ∧
    (∀ b o, o < p.bufBytes → placeOf p (bufBase b + o) = .buf b o) ∧
    (∀ a, a % 4 = 0 →
      (∀ r : Reg, a ≠ r.addr) → (∀ i f, i < p.nIf → a ≠ 0x0100 + 8 * i + IfField.offset f) →
      (∀ i f, i < p.nRt → a ≠ 0x1000 + 16 * i + RtField.offset f) →
      (∀ b o, o < p.bufBytes → a ≠ bufBase b + o) → placeOf p a = .unmapped) ∧
    (∀ (s : State) (v : Word), s.readPlace .unmapped = (0, s) ∧ s.writePlace .unmapped v = s) ∧
    ∀ (s : State) (a : PortAddr) (v : Word), s.cfg = p → placeOf p a.toNat = .unmapped →
      s.memRead a = { s with lastRead := some 0 } ∧ s.memWrite a v = s

/-- R19: a host write to CMD while BUSY = 0 puts the word in CMD and makes STATUS 0x00000001, and changes nothing else (R33
reads otherwise on ERR and the flags of a pending command: R19 is followed, log entry 9); a host read of CMD in any state
that holds the word there, once BUSY = 0, returns it, reserved bits included, and changes nothing. -/
def Obligations.CmdWriteIssuesACommand : Prop :=
  ∀ (s : State) (v : Word), s.status.busy = false →
    hostAccess (.write 0x0000 4 v) s = .next { s with cmd := v, status := Status.issued } ∧
    Status.toWord Status.issued = 0x00000001 ∧
    ∀ u : State, u.cmd = v → u.status.busy = false →
      hostAccess (.read 0x0000 4) u = .next { u with lastRead := some v }

/-- R20: the places of the fields of STATUS; the reserved bits read 0; a host write to STATUS is ignored. -/
def Obligations.StatusWordLayout : Prop :=
  ∀ (s : State), let w := s.status.toWord
    w.getLsbD 0 = s.status.busy ∧ w.extractLsb' 1 3 = 0 ∧ w.extractLsb' 4 4 = s.status.err ∧
    w.getLsbD 8 = s.status.csumOk ∧ w.getLsbD 9 = s.status.ttlExp ∧ w.getLsbD 10 = s.status.lpmHit ∧
    w.extractLsb' 11 21 = 0 ∧
    s.memRead 0x0004 = { s with lastRead := some w } ∧
    ∀ v, s.memWrite 0x0004 v = s

/-- R23, R24, R25, R27, R40: ARG0 and ARG1 read back as written; ACC, IN_LEN and OUT_LEN keep bits 15:0 and read 0 above;
RES0, RES1 and RES2 read as they stand and ignore writes. -/
def Obligations.RegistersReadBackThroughThePort : Prop :=
  ∀ (s : State) (v : Word),
    (s.memWrite 0x0008 v).memRead 0x0008 = { s with arg0 := v, lastRead := some v } ∧
    (s.memWrite 0x000C v).memRead 0x000C = { s with arg1 := v, lastRead := some v } ∧
    (s.memWrite 0x0010 v).memRead 0x0010 =
      { s with acc := BitVec.ofNat 16 v.toNat, lastRead := some (v &&& 0x0000FFFF) } ∧
    (s.memWrite 0x0020 v).memRead 0x0020 =
      { s with inLen := BitVec.ofNat 16 v.toNat, lastRead := some (v &&& 0x0000FFFF) } ∧
    (s.memWrite 0x0024 v).memRead 0x0024 =
      { s with outLen := BitVec.ofNat 16 v.toNat, lastRead := some (v &&& 0x0000FFFF) } ∧
    (s.memWrite 0x0014 v).memRead 0x0014 = { s with lastRead := some s.res0 } ∧
    (s.memWrite 0x0018 v).memRead 0x0018 = { s with lastRead := some s.res1 } ∧
    (s.memWrite 0x001C v).memRead 0x001C = { s with lastRead := some s.res2 }

/-- R22: CFG0 reads BUF_BYTES, CFG1 reads N_RT in bits 15:0 and N_IF in bits 31:16, writes to them are ignored, and no
step ever changes the parameters. -/
def Obligations.ParametersNeverChange : Prop :=
  (∀ (s : State), s.cfg.legal = true →
    (∃ w, s.memRead 0x0028 = { s with lastRead := some w } ∧ w.toNat = s.cfg.bufBytes) ∧
    (∃ w, s.memRead 0x002C = { s with lastRead := some w } ∧
      (w.extractLsb' 0 16).toNat = s.cfg.nRt ∧ (w.extractLsb' 16 16).toNat = s.cfg.nIf) ∧
    ∀ v, s.memWrite 0x0028 v = s ∧ s.memWrite 0x002C v = s) ∧
  ∀ (s t : State), step s = .next t → t.cfg = s.cfg

/-- R28, R29, R40: a host write to a word of a table entry changes that field of that entry and nothing else, and the
word reads back as written; of a control word only V and EGRESS are held, the reserved bits read 0. -/
def Obligations.TableWordsReadBackThroughThePort : Prop :=
  ∀ (s : State) (v : Word), s.Sized →
    (∀ i, i < s.cfg.nIf →
      s.memWrite (BitVec.ofNat 16 (0x0100 + 8 * i)) v =
        { s with ift := s.ift.set i { s.ifEntry i with addr := v } } ∧
      s.memWrite (BitVec.ofNat 16 (0x0104 + 8 * i)) v =
        { s with ift := s.ift.set i { s.ifEntry i with v := v.getLsbD 0 } } ∧
      ((s.memWrite (BitVec.ofNat 16 (0x0100 + 8 * i)) v).memRead (BitVec.ofNat 16 (0x0100 + 8 * i))).lastRead = some v ∧
      ((s.memWrite (BitVec.ofNat 16 (0x0104 + 8 * i)) v).memRead (BitVec.ofNat 16 (0x0104 + 8 * i))).lastRead =
        some (v &&& 0x00000001)) ∧
    ∀ i, i < s.cfg.nRt →
      s.memWrite (BitVec.ofNat 16 (0x1000 + 16 * i)) v =
        { s with rt := s.rt.set i { s.rtEntry i with pfx := v } } ∧
      s.memWrite (BitVec.ofNat 16 (0x1004 + 16 * i)) v =
        { s with rt := s.rt.set i { s.rtEntry i with mask := v } } ∧
      s.memWrite (BitVec.ofNat 16 (0x1008 + 16 * i)) v =
        { s with rt := s.rt.set i { s.rtEntry i with gateway := v } } ∧
      s.memWrite (BitVec.ofNat 16 (0x100C + 16 * i)) v =
        { s with rt := s.rt.set i { s.rtEntry i with v := v.getLsbD 31, egress := v.extractLsb' 0 5 } } ∧
      (∀ a ∈ [0x1000, 0x1004, 0x1008],
        ((s.memWrite (BitVec.ofNat 16 (a + 16 * i)) v).memRead (BitVec.ofNat 16 (a + 16 * i))).lastRead = some v) ∧
      ((s.memWrite (BitVec.ofNat 16 (0x100C + 16 * i)) v).memRead (BitVec.ofNat 16 (0x100C + 16 * i))).lastRead =
        some (v &&& 0x8000001F)

/-- R31, R42: a host word write to a buffer makes its four bytes written, most significant first, and leaves every other
byte of both buffers as it was; a host word read returns the four bytes most significant first, each written or a draw
of its own number, and changes nothing else. -/
def Obligations.BufferLanesAreBigEndian : Prop :=
  ∀ (s : State) (b : Buf) (o : Nat) (v : Word), s.cfg.legal = true → o % 4 = 0 → o < s.cfg.bufBytes →
    (∃ t, t = s.memWrite (BitVec.ofNat 16 (bufBase b + o)) v ∧
      t.cell b o = some (v.extractLsb' 24 8) ∧ t.cell b (o + 1) = some (v.extractLsb' 16 8) ∧
      t.cell b (o + 2) = some (v.extractLsb' 8 8) ∧ t.cell b (o + 3) = some (v.extractLsb' 0 8) ∧
      (∀ b' a, ¬ (b' = b ∧ o ≤ a ∧ a < o + 4) → t.cell b' a = s.cell b' a) ∧
      t = { s with inBuf := t.inBuf, outBuf := t.outBuf }) ∧
    ∃ w, s.memRead (BitVec.ofNat 16 (bufBase b + o)) = { s with lastRead := some w, draws := s.draws + 4 } ∧
      w.extractLsb' 24 8 = Memory.byteAt (s.buf b) s.draws o ∧
      w.extractLsb' 16 8 = Memory.byteAt (s.buf b) (s.draws + 1) (o + 1) ∧
      w.extractLsb' 8 8 = Memory.byteAt (s.buf b) (s.draws + 2) (o + 2) ∧
      w.extractLsb' 0 8 = Memory.byteAt (s.buf b) (s.draws + 3) (o + 3)

/-- R59, `ldin`: its host writes leave the bytes in IN from offset 0, the padding of the last word 00, IN_LEN at their
number, and everything else as it was. -/
def Obligations.LdinLoadsTheDatagram : Prop :=
  ∀ (s : State) (bs : List Byte) (rest : List Turn), s.cfg.legal = true → s.status.busy = false →
    bs.length ≤ s.cfg.bufBytes → s.agenda = (Stmt.ldin bs).expand ++ rest →
    ∃ t, Host.Core.run Sys2Proof.core (Stmt.ldin bs).expand.length s = .next t ∧
      t = { s with inBuf := t.inBuf, inLen := BitVec.ofNat 16 bs.length, agenda := rest } ∧
      t.Holds .inB 0 bs ∧
      (∀ a, bs.length ≤ a → a < 4 * ((bs.length + 3) / 4) → t.cell .inB a = some 0) ∧
      ∀ a, 4 * ((bs.length + 3) / 4) ≤ a → t.cell .inB a = s.cell .inB a

/-- R59, `ldif` and `ldroute`: their host writes make the entry valid with the given fields and change no other entry
and nothing else. -/
def Obligations.TableLoadsWriteOneEntry : Prop :=
  ∀ (s : State) (rest : List Turn), s.Sized → s.status.busy = false →
    (∀ i a, i < s.cfg.nIf → s.agenda = (Stmt.ldif i a).expand ++ rest →
      Host.Core.run Sys2Proof.core 2 s =
        .next { s with ift := s.ift.set i { addr := a, v := true }, agenda := rest }) ∧
    ∀ i p m g (e : BitVec 5), i < s.cfg.nRt → s.agenda = (Stmt.ldroute i p m g (e.setWidth 32)).expand ++ rest →
      Host.Core.run Sys2Proof.core 4 s =
        .next { s with
          rt := s.rt.set i { pfx := p, mask := m, gateway := g, egress := e, v := true }, agenda := rest }

/-! ### The checksum unit -/

/-- R61: one's-complement addition: the sum when it fits 16 bits, else the sum less 0xFFFF. -/
def Obligations.OcaddCarriesEndAround : Prop :=
  ∀ (a w : Half),
    (a.toNat + w.toNat ≤ 0xFFFF → (ocadd a w).toNat = a.toNat + w.toNat) ∧
    (0xFFFF < a.toNat + w.toNat → (ocadd a w).toNat = a.toNat + w.toNat - 0xFFFF)

/-- R63: the five laws of the accumulator. -/
def Obligations.AccumulatorLaws : Prop :=
  (∀ acc bs, ocsum acc bs = 0 ↔ acc = 0 ∧ ∀ w ∈ wordsOf bs, w = 0) ∧
  (∀ acc bs, ocsum acc bs ≠ 0 →
    (ocsum acc bs).toNat % 0xFFFF = (acc.toNat + (wordsOf bs).sum) % 0xFFFF ∧
    ∀ r : Nat, 1 ≤ r → r ≤ 0xFFFF → r % 0xFFFF = (acc.toNat + (wordsOf bs).sum) % 0xFFFF →
      r = (ocsum acc bs).toNat) ∧
  (∀ acc bs bs', (wordsOf bs).Perm (wordsOf bs') → ocsum acc bs = ocsum acc bs') ∧
  (∀ acc bs, (ocsum acc bs).toNat =
    foldCarries (acc.toNat + (wordsOf bs).sum) (acc.toNat + (wordsOf bs).sum)) ∧
  (∀ w, ocadd 0 w = w ∧ (w ≠ 0 → ocadd 0xFFFF w = w)) ∧ ocadd 0xFFFF 0 = 0xFFFF ∧
  (∀ s, ocadd s (~~~s) = 0xFFFF) ∧
  (∀ h : List Byte, 12 ≤ h.length → let c := ~~~hsum h
    ocsum 0 ((h.set 10 (c.extractLsb' 8 8)).set 11 (c.extractLsb' 0 8)) = 0xFFFF) ∧
  (∀ acc b1 b2, b1.length % 2 = 0 → ocsum (ocsum acc b1) b2 = ocsum acc (b1 ++ b2)) ∧
  ∃ acc b1 b2, b1.length % 2 = 1 ∧ ocsum (ocsum acc b1) b2 ≠ ocsum acc (b1 ++ b2)

/-- R67: CSUM.CLR, word 0x00000001, sets ACC to 0, sets no flag, and changes nothing else but STATUS. -/
def Obligations.CsumClrClearsTheAccumulator : Prop :=
  decode 0x00000001 = .ok .csumClr ∧ ∀ (s : State), exec .csumClr s = .next { s with acc := 0x0000, status := s.ended 0 }

/-- R68: CSUM.ADD adds the words of `BUF[off .. off+n)` to ACC and writes `~ACC` to RES0; the range is checked against
BUF_BYTES alone, and a range that leaves the buffer reports E_RANGE (code 2) and changes nothing but STATUS. -/
def Obligations.CsumAddSumsARange : Prop :=
  ∀ (b : Buf) (s : State), let off := s.arg0.toNat % 2 ^ 16; let n := s.arg1.toNat % 2 ^ 16
    (off + n ≤ s.cfg.bufBytes → ∃ sum : Half,
      IsOcSum sum s.acc (wordsOf (Memory.bytes (s.buf b) s.draws off n)) ∧
      exec (csumAddOf b) s = .next { s with
        acc := sum, res0 := (~~~sum).setWidth 32, status := s.ended 0, draws := s.draws + n }) ∧
    (s.cfg.bufBytes < off + n → exec (csumAddOf b) s = .next { s with status := s.ended 2 })

/-- R64, R65, R69: CSUM.VAL on a buffer whose header passes the check: ACC gets the header sum with the checksum field
zeroed, RES0 its complement, RES1 the stored field, CSUM_OK whether the stored field is 0 or equals RES0; no buffer
byte and nothing else changes. -/
def Obligations.CsumValReportsTheHeaderChecksum : Prop :=
  ∀ (b : Buf) (s : State), s.HeaderOk b →
    let h := Memory.bytes (s.buf b) (s.draws + 1) 0 (4 * s.ihl b)
    let st := Memory.be16 (s.buf b) (s.draws + 1 + 4 * s.ihl b) 10
    ∃ sum : Half, IsOcSum sum 0 (headerWords h) ∧
      exec (csumValOf b) s = .next { s with
        acc := sum, res0 := (~~~sum).setWidth 32, res1 := st.setWidth 32
        status := { s.ended 0 with csumOk := decide (st = 0 ∨ st = ~~~sum) }
        draws := s.draws + 1 + 4 * s.ihl b + 2 }

/-- R64, R65, R71: CSUM.FIX on a buffer whose header passes the check: bytes 10 and 11 of that buffer get the complement
of the header sum, which is never 0xFFFF where the header's first byte is written; ACC and RES0 as for the sum; every
other byte of both buffers reads as before and nothing else changes. -/
def Obligations.CsumFixStoresTheHeaderChecksum : Prop :=
  ∀ (b : Buf) (s : State), s.HeaderOk b →
    let h := Memory.bytes (s.buf b) (s.draws + 1) 0 (4 * s.ihl b)
    ∃ (sum : Half) (t : State), IsOcSum sum 0 (headerWords h) ∧ exec (csumFixOf b) s = .next t ∧
      t = { s with
        inBuf := t.inBuf, outBuf := t.outBuf, acc := sum, res0 := (~~~sum).setWidth 32, status := s.ended 0
        draws := s.draws + 1 + 4 * s.ihl b } ∧
      t.cell b 10 = some ((~~~sum).extractLsb' 8 8) ∧ t.cell b 11 = some ((~~~sum).extractLsb' 0 8) ∧
      (∀ b' a, ¬ (b' = b ∧ (a = 10 ∨ a = 11)) → t.cell b' a = s.cell b' a) ∧
      (s.cell b 0 ≠ none → ~~~sum ≠ (0xFFFF : Half))

/-- R65, R94: where the header check fails, CSUM.VAL and CSUM.FIX report E_MALFORMED (code 3); where the datagram check
fails (R66), so do HDR.FWD and ICMP.ECHO; nothing but STATUS changes, the model's count of reads apart. -/
def Obligations.FailedChecksReportMalformed : Prop :=
  (∀ (b : Buf) (s : State), ¬ s.HeaderOk b → ∀ i ∈ [csumValOf b, csumFixOf b],
    ∃ d, exec i s = .next { s with status := s.ended 3, draws := d }) ∧
  ∀ (s : State), ¬ s.DatagramOk → ∀ i ∈ [Instr.hdrFwd, Instr.icmpEcho],
    ∃ d, exec i s = .next { s with status := s.ended 3, draws := d }

/-- R71: after CSUM.FIX on a buffer whose header bytes are written, CSUM.VAL on the same buffer, from any state that still
holds that buffer and its length, passes with RES0 = RES1 and leaves the buffers as they are. -/
def Obligations.FixedHeaderValidates : Prop :=
  ∀ (b : Buf) (s t u : State), s.HeaderOk b → (∀ a < 4 * s.ihl b, a ≠ 10 → a ≠ 11 → s.cell b a ≠ none) →
    exec (csumFixOf b) s = .next t → u.buf b = t.buf b → u.lenOf b = t.lenOf b → u.cfg = t.cfg →
    ∃ v, exec (csumValOf b) u = .next v ∧ v.status.csumOk = true ∧ v.status.err = 0 ∧ v.res0 = t.res0 ∧
      v.res1 = t.res0 ∧ v.inBuf = u.inBuf ∧ v.outBuf = u.outBuf

/-- R66, R72, R73: HDR.FWD on a datagram that passes the check: OUT gets the L bytes of IN with the TTL decremented
(0 becomes 255) and the checksum recomputed over the new header, OUT_LEN gets L, RES0 the TTL, RES1 the checksum, TTL_EXP
whether the TTL is 0; IN, ACC, every OUT byte from L on and everything else is as before. -/
def Obligations.HdrFwdWritesTheDecrementedCopy : Prop :=
  ∀ (s : State), s.DatagramOk →
    let len := s.totalLength
    let dgram := Memory.bytes s.inBuf (s.draws + 3) 0 len
    let ttl := (Memory.byteAt s.inBuf (s.draws + 3 + len) 8).toNat
    let ttl' := if ttl = 0 then 255 else ttl - 1
    ∃ (sum : Half) (t : State), exec .hdrFwd s = .next t ∧
      IsOcSum sum 0 (headerWords ((dgram.set 8 (BitVec.ofNat 8 ttl')).take (4 * s.ihl .inB))) ∧
      t = { s with
        outBuf := t.outBuf, outLen := BitVec.ofNat 16 len, res0 := BitVec.ofNat 32 ttl', res1 := (~~~sum).setWidth 32
        status := { s.ended 0 with ttlExp := decide (ttl' = 0) }, draws := s.draws + 3 + len + 1 } ∧
      t.cell .outB 8 = some (BitVec.ofNat 8 ttl') ∧
      t.cell .outB 10 = some ((~~~sum).extractLsb' 8 8) ∧ t.cell .outB 11 = some ((~~~sum).extractLsb' 0 8) ∧
      (∀ a < len, a ≠ 8 → a ≠ 10 → a ≠ 11 → t.cell .outB a = dgram[a]?) ∧
      ∀ a, len ≤ a → t.cell .outB a = s.cell .outB a

/-- R72, R109: the copy HDR.FWD writes carries a valid checksum: CSUM.VAL out on it, from any state that still holds that
OUT buffer and OUT_LEN, passes with the checksum RES1 reported. -/
def Obligations.ForwardedCopyValidates : Prop :=
  ∀ (s t u : State), s.cell .inB 0 ≠ none → exec .hdrFwd s = .next t → t.status.err = 0 →
    u.outBuf = t.outBuf → u.outLen = t.outLen → u.cfg = t.cfg →
    ∃ v, exec .csumValOut u = .next v ∧ v.status.csumOk = true ∧ v.status.err = 0 ∧ v.res0 = t.res1 ∧ v.res1 = t.res1

/-! ### The route lookup engine -/

/-- R74 to R78: LPM arg reports the best route for ARG0: the longest match, at the lowest index on a tie, its next hop,
index, egress and mask, with LPM_HIT; where no entry matches it writes zeros and leaves LPM_HIT; where some entry
matches there is a best one. Nothing else changes. -/
def Obligations.LpmArgFindsTheLongestPrefix : Prop :=
  ∀ (s : State),
    (∀ i, s.BestRoute s.arg0 i → exec .lpmArg s = .next { s with
      res0 := if (s.rtEntry i).gateway = 0 then s.arg0 else (s.rtEntry i).gateway
      res1 := BitVec.ofNat 32 (2 ^ 31 + i * 2 ^ 16 + (s.rtEntry i).egress.toNat)
      res2 := (s.rtEntry i).mask
      status := { s.ended 0 with lpmHit := true } }) ∧
    ((∀ i, ¬ s.RouteMatches s.arg0 i) → exec .lpmArg s = .next { s with
      res0 := 0, res1 := 0, res2 := 0, status := s.ended 0 }) ∧
    ((∃ i, s.RouteMatches s.arg0 i) → ∃ i, s.BestRoute s.arg0 i)

/-- R44, R78: LPM dst reports the best route for bytes 16..19 of IN, most significant first; IN_LEN outside
20..BUF_BYTES reports E_MALFORMED (code 3) and changes nothing but STATUS. -/
def Obligations.LpmDstFindsTheLongestPrefix : Prop :=
  ∀ (s : State),
    (20 ≤ s.inLen.toNat → s.inLen.toNat ≤ s.cfg.bufBytes →
      ∃ key : Word, key.toNat = (Memory.byteAt s.inBuf s.draws 16).toNat * 2 ^ 24 +
          (Memory.byteAt s.inBuf (s.draws + 1) 17).toNat * 2 ^ 16 +
          (Memory.byteAt s.inBuf (s.draws + 2) 18).toNat * 2 ^ 8 + (Memory.byteAt s.inBuf (s.draws + 3) 19).toNat ∧
        (∀ i, s.BestRoute key i → exec .lpmDst s = .next { s with
          res0 := if (s.rtEntry i).gateway = 0 then key else (s.rtEntry i).gateway
          res1 := BitVec.ofNat 32 (2 ^ 31 + i * 2 ^ 16 + (s.rtEntry i).egress.toNat)
          res2 := (s.rtEntry i).mask
          status := { s.ended 0 with lpmHit := true }, draws := s.draws + 4 }) ∧
        ((∀ i, ¬ s.RouteMatches key i) → exec .lpmDst s = .next { s with
          res0 := 0, res1 := 0, res2 := 0, status := s.ended 0, draws := s.draws + 4 })) ∧
    (s.inLen.toNat < 20 ∨ s.cfg.bufBytes < s.inLen.toNat → exec .lpmDst s = .next { s with status := s.ended 3 })

/-- R75: for a contiguous mask of `n` leading ones the length is `n`, and such masks are ordered by length as their
unsigned values are. -/
def Obligations.ContiguousMaskLengthIsPrefixLength : Prop :=
  ∀ n, n ≤ 32 → ∀ m, m ≤ 32 →
    popcount (BitVec.ofNat 32 (2 ^ 32 - 2 ^ (32 - n))) = n ∧
    (n < m ↔ (BitVec.ofNat 32 (2 ^ 32 - 2 ^ (32 - n))).toNat < (BitVec.ofNat 32 (2 ^ 32 - 2 ^ (32 - m))).toNat)

/-- R78, R80: what LPM reports depends on the route table and the key alone: two lookups of one key, each by lpm arg or by
lpm dst, in states that agree on the table (and on STATUS) report the same, and the tables stay as they are. -/
def Obligations.LpmDependsOnlyOnTableAndKey : Prop :=
  ∀ (i i' : Instr) (k : Word) (s s' t t' : State), s.LooksUp i k → s'.LooksUp i' k →
    s.cfg.nRt = s'.cfg.nRt → (∀ j < s.cfg.nRt, s.rtEntry j = s'.rtEntry j) →
    s.status = s'.status → exec i s = .next t → exec i' s' = .next t' →
    t.res0 = t'.res0 ∧ t.res1 = t'.res1 ∧ t.res2 = t'.res2 ∧ t.status = t'.status ∧ t.rt = s.rt ∧ t'.rt = s'.rt

/-! ### The ICMP synthesizer -/

/-- R81 to R86: ICMP.ERR from a valid interface on a datagram that passes the check writes the reply to OUT: the
20-byte header from the interface's address to the original source, the type and code of the selector, four zero bytes,
the header as received, and at most 8 payload bytes; OUT_LEN, RES0 and RES1 as the reply has them; every OUT byte past
the reply, IN, ACC and everything else is as before. -/
def Obligations.IcmpErrWritesTheQuotingReply : Prop :=
  ∀ (s : State), ∀ p ∈ icmpErrTable,
    let idx := s.arg0.toNat % 2 ^ 8
    idx < s.cfg.nIf → (s.ifEntry idx).v = true → s.DatagramOk →
    let h := 4 * s.ihl .inB
    let q := min 8 (s.totalLength - h)
    let len : Half := BitVec.ofNat 16 (28 + h + q)
    let src := (s.ifEntry idx).addr
    let dst := Memory.be32 s.inBuf (s.draws + 3) 12
    let rest := [0, 0, 0, 0] ++ Memory.bytes s.inBuf (s.draws + 7) 0 h ++ Memory.bytes s.inBuf (s.draws + 7 + h) h q
    ∃ (ipc ic : Half) (t : State), exec p.1 s = .next t ∧
      ReplyChecksums len ipc src dst p.2.1 p.2.2 ic rest ∧
      t.Holds .outB 0 (replyBytes len ipc src dst p.2.1 p.2.2 ic rest) ∧
      (∀ a, 28 + h + q ≤ a → t.cell .outB a = s.cell .outB a) ∧
      t = { s with
        outBuf := t.outBuf, outLen := len, res0 := ipc.setWidth 32, res1 := ic.setWidth 32, status := s.ended 0
        draws := s.draws + 7 + h + q }

/-- R86, R94: the errors of ICMP.ERR in their order: an index outside the table is E_RANGE (code 2), an invalid entry
E_NO_IF (code 5), a failed datagram check E_MALFORMED (code 3); nothing but STATUS changes, the model's count of reads
apart. -/
def Obligations.IcmpErrErrorsInOrder : Prop :=
  ∀ (s : State), ∀ i ∈ icmpErrTable.map Prod.fst,
    let idx := s.arg0.toNat % 2 ^ 8
    (s.cfg.nIf ≤ idx → exec i s = .next { s with status := s.ended 2 }) ∧
    (idx < s.cfg.nIf → (s.ifEntry idx).v = false → exec i s = .next { s with status := s.ended 5 }) ∧
    (idx < s.cfg.nIf → (s.ifEntry idx).v = true → ¬ s.DatagramOk →
      ∃ d, exec i s = .next { s with status := s.ended 3, draws := d })

/-- R85: an error reply is 48 to 96 bytes long, so it always fits in OUT. -/
def Obligations.ErrorReplyLengthIsBounded : Prop :=
  ∀ (s t : State), s.cfg.legal = true → ∀ i ∈ icmpErrTable.map Prod.fst, exec i s = .next t → t.status.err = 0 →
    48 ≤ t.outLen.toNat ∧ t.outLen.toNat ≤ 96 ∧ t.outLen.toNat ≤ s.cfg.bufBytes

/-- R84, R110: after HDR.FWD, an ICMP.ERR from any state that still holds IN and IN_LEN quotes the original,
pre-decrement header and payload prefix byte for byte. -/
def Obligations.QuoteShowsTheHeaderBeforeTheDecrement : Prop :=
  ∀ (s t u v : State), s.DatagramOk →
    let h := 4 * s.ihl .inB
    let q := min 8 (s.totalLength - h)
    (∀ a < h + q, s.cell .inB a ≠ none) →
    exec .hdrFwd s = .next t → u.inBuf = t.inBuf → u.inLen = t.inLen → u.cfg = t.cfg →
    ∀ i ∈ icmpErrTable.map Prod.fst, exec i u = .next v → v.status.err = 0 →
      v.outLen = BitVec.ofNat 16 (28 + h + q) ∧ ∀ k < h + q, v.cell .outB (28 + k) = s.cell .inB k

/-- R81, R82, R88, R89: ICMP.ECHO on an echo request (protocol 1, type 8, at least 4 ICMP bytes) writes the reply to
OUT: source and destination exchanged, type and code 0, everything after the request's ICMP checksum copied; OUT_LEN,
RES0 and RES1 as the reply has them; every OUT byte past the reply, IN, ACC and everything else is as before. -/
def Obligations.IcmpEchoWritesTheReply : Prop :=
  ∀ (s : State), s.DatagramOk →
    let h := 4 * s.ihl .inB
    let m := s.totalLength - h
    4 ≤ m → Memory.byteAt s.inBuf (s.draws + 3) 9 = 1 → Memory.byteAt s.inBuf (s.draws + 4) h = 8 →
    let len : Half := BitVec.ofNat 16 (20 + m)
    let src := Memory.be32 s.inBuf (s.draws + 5) 16
    let dst := Memory.be32 s.inBuf (s.draws + 9) 12
    let rest := Memory.bytes s.inBuf (s.draws + 13) (h + 4) (m - 4)
    ∃ (ipc ic : Half) (t : State), exec .icmpEcho s = .next t ∧
      ReplyChecksums len ipc src dst 0 0 ic rest ∧
      t.Holds .outB 0 (replyBytes len ipc src dst 0 0 ic rest) ∧
      (∀ a, 20 + m ≤ a → t.cell .outB a = s.cell .outB a) ∧
      t = { s with
        outBuf := t.outBuf, outLen := len, res0 := ipc.setWidth 32, res1 := ic.setWidth 32, status := s.ended 0
        draws := s.draws + 13 + (m - 4) }

/-- R89, R94: where the datagram check passes, ICMP.ECHO reports E_MALFORMED (code 3) for an ICMP message shorter than 4
bytes, else E_NOT_ECHO (code 4) for a protocol other than 1 or a type other than 8; nothing but STATUS changes, the
model's count of reads apart. -/
def Obligations.IcmpEchoErrorsInOrder : Prop :=
  ∀ (s : State), s.DatagramOk →
    let h := 4 * s.ihl .inB
    let m := s.totalLength - h
    (m < 4 → ∃ d, exec .icmpEcho s = .next { s with status := s.ended 3, draws := d }) ∧
    (4 ≤ m → (Memory.byteAt s.inBuf (s.draws + 3) 9 ≠ 1 ∨ Memory.byteAt s.inBuf (s.draws + 4) h ≠ 8) →
      ∃ d, exec .icmpEcho s = .next { s with status := s.ended 4, draws := d })

/-- R81, R82, R109: every reply carries valid checksums: from any state that still holds its OUT buffer and OUT_LEN,
CSUM.VAL out passes, and CSUM.ADD out over its ICMP message from ACC = 0 gives 0xFFFF. -/
def Obligations.RepliesCarryValidChecksums : Prop :=
  ∀ (i : Instr) (s t u : State), i ∈ [Instr.icmpErrTx, .icmpErrNet, .icmpErrPort, .icmpEcho] → s.cfg.legal = true →
    exec i s = .next t → t.status.err = 0 → u.outBuf = t.outBuf → u.outLen = t.outLen → u.cfg = t.cfg →
    (∃ v, exec .csumValOut u = .next v ∧ v.status.csumOk = true ∧ v.status.err = 0 ∧ v.res0 = t.res0 ∧
      v.res1 = t.res0) ∧
    (u.acc = 0 → u.arg0 = 20 → u.arg1 = BitVec.ofNat 32 (t.outLen.toNat - 20) →
      ∃ v, exec .csumAddOut u = .next v ∧ v.acc = 0xFFFF ∧ v.res0 = 0 ∧ v.status.err = 0)

/-! ### The block and its host -/

/-- R70, R108: the block reports and enforces nothing: after any command `i`, whatever completion code and flags it left
(a checksum mismatch among them), a CMD write of any command `j` is issued alike, and the Block's step then executes `j` to
completion. What the CMD write makes of STATUS is R19 over R33 (log entry 9). -/
def Obligations.NoReportedResultStopsTheNextCommand : Prop :=
  ∀ (i j : Instr) (s t : State), exec i s = .next t →
    let u := { t with cmd := encode j, status := Status.issued }
    hostAccess (.write 0x0000 4 (encode j)) t = .next u ∧
    (∀ st : Status, st.busy = false →
      hostAccess (.write 0x0000 4 (encode j)) { t with status := st } = .next u) ∧
    blockTurn u = exec j u ∧ ∃ v, exec j u = .next v ∧ v.status.busy = false
end

