-- ==== Sys2Proof/Laws/Memory.lean ====
section
/-!
SUPPORT. The laws of the buffers: a read after a write, every other byte unchanged, the canonical form kept by every
operation, and the bytes of a range.
-/

namespace Sys2Proof.Machine

@[simp] theorem Memory.get?_nil (a : Nat) : Memory.get? [] a = none := rfl

/-- A written byte reads back. -/
@[simp] theorem Memory.get?_set_self (m : Memory) (a : Nat) (v : Byte) : Memory.get? (Memory.set m a v) a = some v := by
  induction m with
  | nil => simp [Memory.set, Memory.get?]
  | cons c m ih =>
    obtain ⟨k, w⟩ := c
    unfold Memory.set
    split
    · simp [Memory.get?]
    · split
      · simp [Memory.get?]
      · rename_i h1 h2
        simp [Memory.get?, ih, Ne.symm h2]

/-- Writing a byte leaves every other byte as it was. -/
theorem Memory.get?_set_ne (m : Memory) {a k : Nat} (v : Byte) (h : k ≠ a) :
    Memory.get? (Memory.set m a v) k = Memory.get? m k := by
  induction m with
  | nil => simp [Memory.set, Memory.get?, Ne.symm h, Memory.unlisted]
  | cons c m ih =>
    obtain ⟨j, w⟩ := c
    unfold Memory.set
    split
    · simp [Memory.get?, Ne.symm h]
    · split
      · rename_i _ h2
        subst h2
        simp [Memory.get?, Ne.symm h]
      · by_cases hj : j = k <;> simp [Memory.get?, ih, hj]

/-- Everything `setBytes` does: the bytes of the range read as written, every other byte as before. -/
theorem Memory.get?_setBytes (bs : List Byte) (m : Memory) (a k : Nat) :
    Memory.get? (Memory.setBytes m a bs) k =
      if a ≤ k ∧ k < a + bs.length then bs[k - a]? else Memory.get? m k := by
  induction bs generalizing m a with
  | nil =>
    have : ¬ (a ≤ k ∧ k < a + ([] : List Byte).length) := by simp
    rw [if_neg this, Memory.setBytes]
  | cons b bs ih =>
    rw [Memory.setBytes, ih]
    by_cases hk : k = a
    · subst hk; simp
    · rw [Memory.get?_set_ne m b hk]
      by_cases h : a + 1 ≤ k ∧ k < a + 1 + bs.length
      · have h' : a ≤ k ∧ k < a + (b :: bs).length := by simp; omega
        rw [if_pos h, if_pos h']
        obtain ⟨j, rfl⟩ : ∃ j, k = a + 1 + j := ⟨k - (a + 1), by omega⟩
        rw [show a + 1 + j - (a + 1) = j by omega, show a + 1 + j - a = j + 1 by omega]
        simp
      · have h' : ¬ (a ≤ k ∧ k < a + (b :: bs).length) := by simp; omega
        rw [if_neg h, if_neg h']

/-! ### The canonical form -/

theorem Memory.risingFrom_set {j a : Nat} (h : j < a) (v : Byte) (m : Memory) (hm : Memory.risingFrom j m = true) :
    Memory.risingFrom j (Memory.set m a v) = true := by
  induction m generalizing j with
  | nil => simp [Memory.set, Memory.risingFrom, h]
  | cons c m ih =>
    obtain ⟨k, w⟩ := c
    simp only [Memory.risingFrom, Bool.and_eq_true, decide_eq_true_eq] at hm
    unfold Memory.set
    split
    · rename_i hk
      simp [Memory.risingFrom, h, hk, hm.2]
    · split
      · rename_i _ hk
        subst hk
        simp [Memory.risingFrom, h, hm.2]
      · simp only [Memory.risingFrom, Bool.and_eq_true, decide_eq_true_eq]
        exact ⟨hm.1, ih (by omega) hm.2⟩

/-- Writing a byte keeps the canonical form. -/
theorem Memory.wf_set (m : Memory) (a : Nat) (v : Byte) (hm : Memory.wf m = true) :
    Memory.wf (Memory.set m a v) = true := by
  cases m with
  | nil => rfl
  | cons c m =>
    obtain ⟨k, w⟩ := c
    simp only [Memory.wf] at hm
    unfold Memory.set
    split
    · rename_i h
      simp [Memory.wf, Memory.risingFrom, h, hm]
    · split
      · rename_i _ h
        subst h
        simpa [Memory.wf] using hm
      · exact Memory.risingFrom_set (by omega) v m hm

/-- Writing bytes keeps the canonical form. -/
theorem Memory.wf_setBytes (bs : List Byte) (m : Memory) (a : Nat) (hm : Memory.wf m = true) :
    Memory.wf (Memory.setBytes m a bs) = true := by
  induction bs generalizing m a with
  | nil => exact hm
  | cons b bs ih => exact ih _ _ (Memory.wf_set m a b hm)

/-- The buffers after reset are in the canonical form. -/
theorem State.reset_wf : Memory.wf State.reset.inBuf = true ∧ Memory.wf State.reset.outBuf = true := ⟨rfl, rfl⟩

/-- Writing a byte below `n` keeps every listed offset below `n`. -/
theorem Memory.below_set {n a : Nat} (h : a < n) (v : Byte) (m : Memory) (hm : Memory.below n m = true) :
    Memory.below n (Memory.set m a v) = true := by
  induction m with
  | nil => simpa [Memory.set, Memory.below] using h
  | cons c m ih =>
    obtain ⟨k, w⟩ := c
    simp only [Memory.below, List.all_cons, Bool.and_eq_true, decide_eq_true_eq] at hm ih ⊢
    unfold Memory.set
    split
    · simp [h, hm.1]; simpa using hm.2
    · split
      · simp [h]; simpa using hm.2
      · simp only [List.all_cons, Bool.and_eq_true, decide_eq_true_eq]
        exact ⟨hm.1, ih hm.2⟩

/-- Writing a range below `n` keeps every listed offset below `n`. -/
theorem Memory.below_setBytes {n : Nat} (bs : List Byte) (m : Memory) (a : Nat) (h : a + bs.length ≤ n)
    (hm : Memory.below n m = true) : Memory.below n (Memory.setBytes m a bs) = true := by
  induction bs generalizing m a with
  | nil => exact hm
  | cons b bs ih =>
    simp only [List.length_cons] at h
    exact ih _ _ (by omega) (Memory.below_set (by omega) b m hm)

/-! ### Ranges of bytes -/

@[simp] theorem Memory.length_bytes (m : Memory) (d a n : Nat) : (Memory.bytes m d a n).length = n := by
  induction n generalizing d a with
  | zero => rfl
  | succ n ih => simp [Memory.bytes, ih]

/-- Everything a range read does: byte `k` of the range carries read number `d + k`. -/
theorem Memory.getElem?_bytes (m : Memory) (d a n k : Nat) (h : k < n) :
    (Memory.bytes m d a n)[k]? = some (Memory.byteAt m (d + k) (a + k)) := by
  induction n generalizing d a k with
  | zero => omega
  | succ n ih =>
    cases k with
    | zero => simp [Memory.bytes]
    | succ k =>
      simp only [Memory.bytes, List.getElem?_cons_succ]
      rw [ih _ _ _ (by omega), show d + 1 + k = d + (k + 1) by omega, show a + 1 + k = a + (k + 1) by omega]

/-- A written byte reads as itself, whatever number its read carries. -/
theorem Memory.byteAt_of_get? {m : Memory} {a : Nat} {v : Byte} (h : Memory.get? m a = some v) (d : Nat) :
    Memory.byteAt m d a = v := by
  simp [Memory.byteAt, h]

/-- An unwritten byte reads as the draw its read's number names. -/
theorem Memory.byteAt_of_unwritten {m : Memory} {a : Nat} (h : Memory.get? m a = none) (d : Nat) :
    Memory.byteAt m d a = Config.freeByte d := by
  simp [Memory.byteAt, h]

/-- A read of a byte returns the written byte, else the draw its number names. -/
theorem State.byteOf_eq (s : State) (b : Buf) (d a : Nat) : s.byteOf b d a = Memory.byteAt (s.buf b) d a := by
  simp only [State.byteOf, State.cell, Memory.byteAt]
  cases Memory.get? (s.buf b) a <;> rfl

/-- A range whose bytes are all written reads as those bytes, whatever numbers the reads carry. -/
theorem Memory.bytes_of_written (m : Memory) (d a : Nat) {n : Nat} (bs : List Byte) (hn : bs.length = n)
    (h : ∀ k < n, Memory.get? m (a + k) = bs[k]?) : Memory.bytes m d a n = bs := by
  subst hn
  apply List.ext_getElem?
  intro k
  by_cases hk : k < bs.length
  · rw [Memory.getElem?_bytes _ _ _ _ _ hk]
    have := h k hk
    rw [List.getElem?_eq_getElem hk] at this ⊢
    rw [Memory.byteAt_of_get? this]
  · rw [List.getElem?_eq_none (by simp; omega), List.getElem?_eq_none (by omega)]

end Sys2Proof.Machine
end

