-- ==== Sys2Proof/Laws/State.lean ====
section
/-!
SUPPORT. One lemma per field per named update of the state, each true by rfl, so that no proof unfolds an update.
-/

namespace Sys2Proof.Machine

/-! ### Ending, raising, issuing, flags -/

@[simp] theorem State.finish_cmd (s : State) : s.finish.cmd = s.cmd := rfl
@[simp] theorem State.finish_status (s : State) : s.finish.status = { s.status with busy := false, err := 0 } := rfl
@[simp] theorem State.finish_arg0 (s : State) : s.finish.arg0 = s.arg0 := rfl
@[simp] theorem State.finish_arg1 (s : State) : s.finish.arg1 = s.arg1 := rfl
@[simp] theorem State.finish_acc (s : State) : s.finish.acc = s.acc := rfl
@[simp] theorem State.finish_res0 (s : State) : s.finish.res0 = s.res0 := rfl
@[simp] theorem State.finish_res1 (s : State) : s.finish.res1 = s.res1 := rfl
@[simp] theorem State.finish_res2 (s : State) : s.finish.res2 = s.res2 := rfl
@[simp] theorem State.finish_inLen (s : State) : s.finish.inLen = s.inLen := rfl
@[simp] theorem State.finish_outLen (s : State) : s.finish.outLen = s.outLen := rfl
@[simp] theorem State.finish_cfg (s : State) : s.finish.cfg = s.cfg := rfl
@[simp] theorem State.finish_ift (s : State) : s.finish.ift = s.ift := rfl
@[simp] theorem State.finish_rt (s : State) : s.finish.rt = s.rt := rfl
@[simp] theorem State.finish_inBuf (s : State) : s.finish.inBuf = s.inBuf := rfl
@[simp] theorem State.finish_outBuf (s : State) : s.finish.outBuf = s.outBuf := rfl
@[simp] theorem State.finish_draws (s : State) : s.finish.draws = s.draws := rfl
@[simp] theorem State.finish_lastRead (s : State) : s.finish.lastRead = s.lastRead := rfl
@[simp] theorem State.finish_agenda (s : State) : s.finish.agenda = s.agenda := rfl

@[simp] theorem State.raise_cmd (s : State) (e : ErrCode) : (s.raise e).cmd = s.cmd := rfl
@[simp] theorem State.raise_status (s : State) (e : ErrCode) : (s.raise e).status = { s.status with busy := false, err := e.code } := rfl
@[simp] theorem State.raise_arg0 (s : State) (e : ErrCode) : (s.raise e).arg0 = s.arg0 := rfl
@[simp] theorem State.raise_arg1 (s : State) (e : ErrCode) : (s.raise e).arg1 = s.arg1 := rfl
@[simp] theorem State.raise_acc (s : State) (e : ErrCode) : (s.raise e).acc = s.acc := rfl
@[simp] theorem State.raise_res0 (s : State) (e : ErrCode) : (s.raise e).res0 = s.res0 := rfl
@[simp] theorem State.raise_res1 (s : State) (e : ErrCode) : (s.raise e).res1 = s.res1 := rfl
@[simp] theorem State.raise_res2 (s : State) (e : ErrCode) : (s.raise e).res2 = s.res2 := rfl
@[simp] theorem State.raise_inLen (s : State) (e : ErrCode) : (s.raise e).inLen = s.inLen := rfl
@[simp] theorem State.raise_outLen (s : State) (e : ErrCode) : (s.raise e).outLen = s.outLen := rfl
@[simp] theorem State.raise_cfg (s : State) (e : ErrCode) : (s.raise e).cfg = s.cfg := rfl
@[simp] theorem State.raise_ift (s : State) (e : ErrCode) : (s.raise e).ift = s.ift := rfl
@[simp] theorem State.raise_rt (s : State) (e : ErrCode) : (s.raise e).rt = s.rt := rfl
@[simp] theorem State.raise_inBuf (s : State) (e : ErrCode) : (s.raise e).inBuf = s.inBuf := rfl
@[simp] theorem State.raise_outBuf (s : State) (e : ErrCode) : (s.raise e).outBuf = s.outBuf := rfl
@[simp] theorem State.raise_draws (s : State) (e : ErrCode) : (s.raise e).draws = s.draws := rfl
@[simp] theorem State.raise_lastRead (s : State) (e : ErrCode) : (s.raise e).lastRead = s.lastRead := rfl
@[simp] theorem State.raise_agenda (s : State) (e : ErrCode) : (s.raise e).agenda = s.agenda := rfl

@[simp] theorem State.issue_cmd (s : State) (v : Word) : (s.issue v).cmd = v := rfl
@[simp] theorem State.issue_status (s : State) (v : Word) : (s.issue v).status = Status.issued := rfl
@[simp] theorem State.issue_arg0 (s : State) (v : Word) : (s.issue v).arg0 = s.arg0 := rfl
@[simp] theorem State.issue_arg1 (s : State) (v : Word) : (s.issue v).arg1 = s.arg1 := rfl
@[simp] theorem State.issue_acc (s : State) (v : Word) : (s.issue v).acc = s.acc := rfl
@[simp] theorem State.issue_res0 (s : State) (v : Word) : (s.issue v).res0 = s.res0 := rfl
@[simp] theorem State.issue_res1 (s : State) (v : Word) : (s.issue v).res1 = s.res1 := rfl
@[simp] theorem State.issue_res2 (s : State) (v : Word) : (s.issue v).res2 = s.res2 := rfl
@[simp] theorem State.issue_inLen (s : State) (v : Word) : (s.issue v).inLen = s.inLen := rfl
@[simp] theorem State.issue_outLen (s : State) (v : Word) : (s.issue v).outLen = s.outLen := rfl
@[simp] theorem State.issue_cfg (s : State) (v : Word) : (s.issue v).cfg = s.cfg := rfl
@[simp] theorem State.issue_ift (s : State) (v : Word) : (s.issue v).ift = s.ift := rfl
@[simp] theorem State.issue_rt (s : State) (v : Word) : (s.issue v).rt = s.rt := rfl
@[simp] theorem State.issue_inBuf (s : State) (v : Word) : (s.issue v).inBuf = s.inBuf := rfl
@[simp] theorem State.issue_outBuf (s : State) (v : Word) : (s.issue v).outBuf = s.outBuf := rfl
@[simp] theorem State.issue_draws (s : State) (v : Word) : (s.issue v).draws = s.draws := rfl
@[simp] theorem State.issue_lastRead (s : State) (v : Word) : (s.issue v).lastRead = s.lastRead := rfl
@[simp] theorem State.issue_agenda (s : State) (v : Word) : (s.issue v).agenda = s.agenda := rfl

@[simp] theorem State.setCsumOk_cmd (s : State) (st c : Half) : (s.setCsumOk st c).cmd = s.cmd := rfl
@[simp] theorem State.setCsumOk_status (s : State) (st c : Half) : (s.setCsumOk st c).status = { s.status with csumOk := st == 0 || st == c } := rfl
@[simp] theorem State.setCsumOk_arg0 (s : State) (st c : Half) : (s.setCsumOk st c).arg0 = s.arg0 := rfl
@[simp] theorem State.setCsumOk_arg1 (s : State) (st c : Half) : (s.setCsumOk st c).arg1 = s.arg1 := rfl
@[simp] theorem State.setCsumOk_acc (s : State) (st c : Half) : (s.setCsumOk st c).acc = s.acc := rfl
@[simp] theorem State.setCsumOk_res0 (s : State) (st c : Half) : (s.setCsumOk st c).res0 = s.res0 := rfl
@[simp] theorem State.setCsumOk_res1 (s : State) (st c : Half) : (s.setCsumOk st c).res1 = s.res1 := rfl
@[simp] theorem State.setCsumOk_res2 (s : State) (st c : Half) : (s.setCsumOk st c).res2 = s.res2 := rfl
@[simp] theorem State.setCsumOk_inLen (s : State) (st c : Half) : (s.setCsumOk st c).inLen = s.inLen := rfl
@[simp] theorem State.setCsumOk_outLen (s : State) (st c : Half) : (s.setCsumOk st c).outLen = s.outLen := rfl
@[simp] theorem State.setCsumOk_cfg (s : State) (st c : Half) : (s.setCsumOk st c).cfg = s.cfg := rfl
@[simp] theorem State.setCsumOk_ift (s : State) (st c : Half) : (s.setCsumOk st c).ift = s.ift := rfl
@[simp] theorem State.setCsumOk_rt (s : State) (st c : Half) : (s.setCsumOk st c).rt = s.rt := rfl
@[simp] theorem State.setCsumOk_inBuf (s : State) (st c : Half) : (s.setCsumOk st c).inBuf = s.inBuf := rfl
@[simp] theorem State.setCsumOk_outBuf (s : State) (st c : Half) : (s.setCsumOk st c).outBuf = s.outBuf := rfl
@[simp] theorem State.setCsumOk_draws (s : State) (st c : Half) : (s.setCsumOk st c).draws = s.draws := rfl
@[simp] theorem State.setCsumOk_lastRead (s : State) (st c : Half) : (s.setCsumOk st c).lastRead = s.lastRead := rfl
@[simp] theorem State.setCsumOk_agenda (s : State) (st c : Half) : (s.setCsumOk st c).agenda = s.agenda := rfl

@[simp] theorem State.setTtlExp_cmd (s : State) (t : Byte) : (s.setTtlExp t).cmd = s.cmd := rfl
@[simp] theorem State.setTtlExp_status (s : State) (t : Byte) : (s.setTtlExp t).status = { s.status with ttlExp := t == 0 } := rfl
@[simp] theorem State.setTtlExp_arg0 (s : State) (t : Byte) : (s.setTtlExp t).arg0 = s.arg0 := rfl
@[simp] theorem State.setTtlExp_arg1 (s : State) (t : Byte) : (s.setTtlExp t).arg1 = s.arg1 := rfl
@[simp] theorem State.setTtlExp_acc (s : State) (t : Byte) : (s.setTtlExp t).acc = s.acc := rfl
@[simp] theorem State.setTtlExp_res0 (s : State) (t : Byte) : (s.setTtlExp t).res0 = s.res0 := rfl
@[simp] theorem State.setTtlExp_res1 (s : State) (t : Byte) : (s.setTtlExp t).res1 = s.res1 := rfl
@[simp] theorem State.setTtlExp_res2 (s : State) (t : Byte) : (s.setTtlExp t).res2 = s.res2 := rfl
@[simp] theorem State.setTtlExp_inLen (s : State) (t : Byte) : (s.setTtlExp t).inLen = s.inLen := rfl
@[simp] theorem State.setTtlExp_outLen (s : State) (t : Byte) : (s.setTtlExp t).outLen = s.outLen := rfl
@[simp] theorem State.setTtlExp_cfg (s : State) (t : Byte) : (s.setTtlExp t).cfg = s.cfg := rfl
@[simp] theorem State.setTtlExp_ift (s : State) (t : Byte) : (s.setTtlExp t).ift = s.ift := rfl
@[simp] theorem State.setTtlExp_rt (s : State) (t : Byte) : (s.setTtlExp t).rt = s.rt := rfl
@[simp] theorem State.setTtlExp_inBuf (s : State) (t : Byte) : (s.setTtlExp t).inBuf = s.inBuf := rfl
@[simp] theorem State.setTtlExp_outBuf (s : State) (t : Byte) : (s.setTtlExp t).outBuf = s.outBuf := rfl
@[simp] theorem State.setTtlExp_draws (s : State) (t : Byte) : (s.setTtlExp t).draws = s.draws := rfl
@[simp] theorem State.setTtlExp_lastRead (s : State) (t : Byte) : (s.setTtlExp t).lastRead = s.lastRead := rfl
@[simp] theorem State.setTtlExp_agenda (s : State) (t : Byte) : (s.setTtlExp t).agenda = s.agenda := rfl

@[simp] theorem State.setLpmHit_cmd (s : State) : s.setLpmHit.cmd = s.cmd := rfl
@[simp] theorem State.setLpmHit_status (s : State) : s.setLpmHit.status = { s.status with lpmHit := true } := rfl
@[simp] theorem State.setLpmHit_arg0 (s : State) : s.setLpmHit.arg0 = s.arg0 := rfl
@[simp] theorem State.setLpmHit_arg1 (s : State) : s.setLpmHit.arg1 = s.arg1 := rfl
@[simp] theorem State.setLpmHit_acc (s : State) : s.setLpmHit.acc = s.acc := rfl
@[simp] theorem State.setLpmHit_res0 (s : State) : s.setLpmHit.res0 = s.res0 := rfl
@[simp] theorem State.setLpmHit_res1 (s : State) : s.setLpmHit.res1 = s.res1 := rfl
@[simp] theorem State.setLpmHit_res2 (s : State) : s.setLpmHit.res2 = s.res2 := rfl
@[simp] theorem State.setLpmHit_inLen (s : State) : s.setLpmHit.inLen = s.inLen := rfl
@[simp] theorem State.setLpmHit_outLen (s : State) : s.setLpmHit.outLen = s.outLen := rfl
@[simp] theorem State.setLpmHit_cfg (s : State) : s.setLpmHit.cfg = s.cfg := rfl
@[simp] theorem State.setLpmHit_ift (s : State) : s.setLpmHit.ift = s.ift := rfl
@[simp] theorem State.setLpmHit_rt (s : State) : s.setLpmHit.rt = s.rt := rfl
@[simp] theorem State.setLpmHit_inBuf (s : State) : s.setLpmHit.inBuf = s.inBuf := rfl
@[simp] theorem State.setLpmHit_outBuf (s : State) : s.setLpmHit.outBuf = s.outBuf := rfl
@[simp] theorem State.setLpmHit_draws (s : State) : s.setLpmHit.draws = s.draws := rfl
@[simp] theorem State.setLpmHit_lastRead (s : State) : s.setLpmHit.lastRead = s.lastRead := rfl
@[simp] theorem State.setLpmHit_agenda (s : State) : s.setLpmHit.agenda = s.agenda := rfl

/-! ### Buffers -/

@[simp] theorem State.buf_inB (s : State) : s.buf .inB = s.inBuf := rfl
@[simp] theorem State.setBuf_inB (s : State) (m : Memory) : s.setBuf .inB m = { s with inBuf := m } := rfl
@[simp] theorem State.writeBytes_inB (s : State) (a : Nat) (bs : List Byte) :
    s.writeBytes .inB a bs = { s with inBuf := Memory.setBytes s.inBuf a bs } := rfl
@[simp] theorem State.buf_outB (s : State) : s.buf .outB = s.outBuf := rfl
@[simp] theorem State.setBuf_outB (s : State) (m : Memory) : s.setBuf .outB m = { s with outBuf := m } := rfl
@[simp] theorem State.writeBytes_outB (s : State) (a : Nat) (bs : List Byte) :
    s.writeBytes .outB a bs = { s with outBuf := Memory.setBytes s.outBuf a bs } := rfl
@[simp] theorem State.lenOf_inB (s : State) : s.lenOf .inB = s.inLen.toNat := rfl
@[simp] theorem State.lenOf_outB (s : State) : s.lenOf .outB = s.outLen.toNat := rfl

@[simp] theorem State.setBuf_cmd (s : State) (b : Buf) (m : Memory) : (s.setBuf b m).cmd = s.cmd := by cases b <;> rfl
@[simp] theorem State.writeBytes_cmd (s : State) (b : Buf) (a : Nat) (bs : List Byte) : (s.writeBytes b a bs).cmd = s.cmd := by
  cases b <;> rfl
@[simp] theorem State.setBuf_status (s : State) (b : Buf) (m : Memory) : (s.setBuf b m).status = s.status := by cases b <;> rfl
@[simp] theorem State.writeBytes_status (s : State) (b : Buf) (a : Nat) (bs : List Byte) : (s.writeBytes b a bs).status = s.status := by
  cases b <;> rfl
@[simp] theorem State.setBuf_arg0 (s : State) (b : Buf) (m : Memory) : (s.setBuf b m).arg0 = s.arg0 := by cases b <;> rfl
@[simp] theorem State.writeBytes_arg0 (s : State) (b : Buf) (a : Nat) (bs : List Byte) : (s.writeBytes b a bs).arg0 = s.arg0 := by
  cases b <;> rfl
@[simp] theorem State.setBuf_arg1 (s : State) (b : Buf) (m : Memory) : (s.setBuf b m).arg1 = s.arg1 := by cases b <;> rfl
@[simp] theorem State.writeBytes_arg1 (s : State) (b : Buf) (a : Nat) (bs : List Byte) : (s.writeBytes b a bs).arg1 = s.arg1 := by
  cases b <;> rfl
@[simp] theorem State.setBuf_acc (s : State) (b : Buf) (m : Memory) : (s.setBuf b m).acc = s.acc := by cases b <;> rfl
@[simp] theorem State.writeBytes_acc (s : State) (b : Buf) (a : Nat) (bs : List Byte) : (s.writeBytes b a bs).acc = s.acc := by
  cases b <;> rfl
@[simp] theorem State.setBuf_res0 (s : State) (b : Buf) (m : Memory) : (s.setBuf b m).res0 = s.res0 := by cases b <;> rfl
@[simp] theorem State.writeBytes_res0 (s : State) (b : Buf) (a : Nat) (bs : List Byte) : (s.writeBytes b a bs).res0 = s.res0 := by
  cases b <;> rfl
@[simp] theorem State.setBuf_res1 (s : State) (b : Buf) (m : Memory) : (s.setBuf b m).res1 = s.res1 := by cases b <;> rfl
@[simp] theorem State.writeBytes_res1 (s : State) (b : Buf) (a : Nat) (bs : List Byte) : (s.writeBytes b a bs).res1 = s.res1 := by
  cases b <;> rfl
@[simp] theorem State.setBuf_res2 (s : State) (b : Buf) (m : Memory) : (s.setBuf b m).res2 = s.res2 := by cases b <;> rfl
@[simp] theorem State.writeBytes_res2 (s : State) (b : Buf) (a : Nat) (bs : List Byte) : (s.writeBytes b a bs).res2 = s.res2 := by
  cases b <;> rfl
@[simp] theorem State.setBuf_inLen (s : State) (b : Buf) (m : Memory) : (s.setBuf b m).inLen = s.inLen := by cases b <;> rfl
@[simp] theorem State.writeBytes_inLen (s : State) (b : Buf) (a : Nat) (bs : List Byte) : (s.writeBytes b a bs).inLen = s.inLen := by
  cases b <;> rfl
@[simp] theorem State.setBuf_outLen (s : State) (b : Buf) (m : Memory) : (s.setBuf b m).outLen = s.outLen := by cases b <;> rfl
@[simp] theorem State.writeBytes_outLen (s : State) (b : Buf) (a : Nat) (bs : List Byte) : (s.writeBytes b a bs).outLen = s.outLen := by
  cases b <;> rfl
@[simp] theorem State.setBuf_cfg (s : State) (b : Buf) (m : Memory) : (s.setBuf b m).cfg = s.cfg := by cases b <;> rfl
@[simp] theorem State.writeBytes_cfg (s : State) (b : Buf) (a : Nat) (bs : List Byte) : (s.writeBytes b a bs).cfg = s.cfg := by
  cases b <;> rfl
@[simp] theorem State.setBuf_ift (s : State) (b : Buf) (m : Memory) : (s.setBuf b m).ift = s.ift := by cases b <;> rfl
@[simp] theorem State.writeBytes_ift (s : State) (b : Buf) (a : Nat) (bs : List Byte) : (s.writeBytes b a bs).ift = s.ift := by
  cases b <;> rfl
@[simp] theorem State.setBuf_rt (s : State) (b : Buf) (m : Memory) : (s.setBuf b m).rt = s.rt := by cases b <;> rfl
@[simp] theorem State.writeBytes_rt (s : State) (b : Buf) (a : Nat) (bs : List Byte) : (s.writeBytes b a bs).rt = s.rt := by
  cases b <;> rfl
@[simp] theorem State.setBuf_draws (s : State) (b : Buf) (m : Memory) : (s.setBuf b m).draws = s.draws := by cases b <;> rfl
@[simp] theorem State.writeBytes_draws (s : State) (b : Buf) (a : Nat) (bs : List Byte) : (s.writeBytes b a bs).draws = s.draws := by
  cases b <;> rfl
@[simp] theorem State.setBuf_lastRead (s : State) (b : Buf) (m : Memory) : (s.setBuf b m).lastRead = s.lastRead := by cases b <;> rfl
@[simp] theorem State.writeBytes_lastRead (s : State) (b : Buf) (a : Nat) (bs : List Byte) : (s.writeBytes b a bs).lastRead = s.lastRead := by
  cases b <;> rfl
@[simp] theorem State.setBuf_agenda (s : State) (b : Buf) (m : Memory) : (s.setBuf b m).agenda = s.agenda := by cases b <;> rfl
@[simp] theorem State.writeBytes_agenda (s : State) (b : Buf) (a : Nat) (bs : List Byte) : (s.writeBytes b a bs).agenda = s.agenda := by
  cases b <;> rfl

/-! ### Reads -/

/-- Reading `n` bytes yields those bytes and changes nothing but the count of reads. -/
@[simp] theorem State.readBytes_eq (s : State) (b : Buf) (a n : Nat) :
    s.readBytes b a n = (Memory.bytes (s.buf b) s.draws a n, { s with draws := s.draws + n }) := rfl

/-- Reading a byte yields it and changes nothing but the count of reads. -/
@[simp] theorem State.readByte_eq (s : State) (b : Buf) (a : Nat) :
    s.readByte b a = (Memory.byteAt (s.buf b) s.draws a, { s with draws := s.draws + 1 }) := rfl

/-- Reading a 16-bit field yields it and changes nothing but the count of reads. -/
@[simp] theorem State.read16_eq (s : State) (b : Buf) (a : Nat) :
    s.read16 b a = (Memory.be16 (s.buf b) s.draws a, { s with draws := s.draws + 2 }) := rfl

/-- Reading a 32-bit field yields it and changes nothing but the count of reads. -/
@[simp] theorem State.read32_eq (s : State) (b : Buf) (a : Nat) :
    s.read32 b a = (Memory.be32 (s.buf b) s.draws a, { s with draws := s.draws + 4 }) := rfl

/-- A buffer does not depend on the count of reads. -/
@[simp] theorem State.buf_withDraws (s : State) (b : Buf) (d : Nat) : ({ s with draws := d } : State).buf b = s.buf b := by
  cases b <;> rfl

end Sys2Proof.Machine
end

