-- ==== Sys2Proof/Laws/Ops.lean ====
section
/-!
SUPPORT. For each shared operation one lemma that says once everything it can do: the two checks, the lookup, the reply,
each command, the host port and the step.
-/

namespace Sys2Proof.Machine

/-! ### The well-formedness checks -/

theorem ihlOf_eq (b : Byte) : ihlOf b = b.toNat % 16 := by
  simp [ihlOf]

@[simp] theorem toNat_word16 (hi lo : Byte) : (word16 hi lo).toNat = hi.toNat * 256 + lo.toNat := by
  have := hi.isLt
  have := lo.isLt
  simp only [word16, BitVec.toNat_ofNat]
  omega

@[simp] theorem toNat_word32 (b0 b1 b2 b3 : Byte) :
    (word32 b0 b1 b2 b3).toNat = b0.toNat * 2 ^ 24 + b1.toNat * 2 ^ 16 + b2.toNat * 2 ^ 8 + b3.toNat := by
  have := b0.isLt
  have := b1.isLt
  have := b2.isLt
  have := b3.isLt
  simp only [word32, BitVec.toNat_ofNat]
  omega

/-- The four bytes of a big-endian word (R42). -/
theorem word32_lanes (b0 b1 b2 b3 : Byte) :
    (word32 b0 b1 b2 b3).extractLsb' 24 8 = b0 ∧ (word32 b0 b1 b2 b3).extractLsb' 16 8 = b1 ∧
      (word32 b0 b1 b2 b3).extractLsb' 8 8 = b2 ∧ (word32 b0 b1 b2 b3).extractLsb' 0 8 = b3 := by
  have := b0.isLt
  have := b1.isLt
  have := b2.isLt
  have := b3.isLt
  refine ⟨?_, ?_, ?_, ?_⟩ <;>
    (apply BitVec.eq_of_toNat_eq; rw [BitVec.extractLsb'_toNat, toNat_word32, Nat.shiftRight_eq_div_pow]; omega)

/-- `be16(BUF, a) = BUF[a]·256 + BUF[a+1]` (R10). -/
theorem toNat_be16 (m : Memory) (d a : Nat) :
    (Memory.be16 m d a).toNat = (Memory.byteAt m d a).toNat * 256 + (Memory.byteAt m (d + 1) (a + 1)).toNat :=
  toNat_word16 _ _

/-- STATUS as a number (R20). -/
@[simp] theorem toNat_statusWord (t : Status) :
    t.toWord.toNat = t.busy.toNat + t.err.toNat * 2 ^ 4 + t.csumOk.toNat * 2 ^ 8 + t.ttlExp.toNat * 2 ^ 9 +
      t.lpmHit.toNat * 2 ^ 10 := by
  have := t.err.isLt
  have := Bool.toNat_le t.busy
  have := Bool.toNat_le t.csumOk
  have := Bool.toNat_le t.ttlExp
  have := Bool.toNat_le t.lpmHit
  simp only [Status.toWord, BitVec.toNat_ofNat]
  omega

/-- A passing header check yields the IHL and reads one byte (R65). -/
theorem State.wfHdr_of_ok {s : State} {b : Buf} (h : s.HeaderOk b) :
    s.wfHdr b = (some (s.ihl b), { s with draws := s.draws + 1 }) := by
  obtain ⟨h1, h2, h3, h4⟩ := h
  simp [State.wfHdr, h1, h2, ihlOf_eq, h3, h4]

/-- A failing header check yields nothing and changes at most the count of reads (R65). -/
theorem State.wfHdr_of_not_ok {s : State} {b : Buf} (h : ¬ s.HeaderOk b) :
    ∃ d, s.wfHdr b = (none, { s with draws := d }) ∧ s.draws ≤ d := by
  unfold State.wfHdr
  by_cases h1 : s.lenOf b ≤ s.cfg.bufBytes ∧ 20 ≤ s.lenOf b
  · refine ⟨s.draws + 1, ?_, by omega⟩
    have : ¬ (5 ≤ s.ihl b ∧ 4 * s.ihl b ≤ s.lenOf b) := fun h2 => h ⟨h1.1, h1.2, h2.1, h2.2⟩
    simp only [State.ihl] at this
    simp [h1, ihlOf_eq, this]
  · exact ⟨s.draws, by simp [h1], le_refl _⟩

/-- A passing datagram check yields the IHL and totalLength and reads three bytes (R66). -/
theorem State.wfDgram_of_ok {s : State} (h : s.DatagramOk) :
    s.wfDgram = (some (s.ihl .inB, s.totalLength), { s with draws := s.draws + 3 }) := by
  obtain ⟨h0, h1, h2⟩ := h
  have e : (Memory.be16 s.inBuf (s.draws + 1) 2).toNat = s.totalLength := by rw [toNat_be16]
  simp [State.wfDgram, State.wfHdr_of_ok h0, offTotalLength, e, h1, h2]

/-- A failing datagram check yields nothing and changes at most the count of reads (R66). -/
theorem State.wfDgram_of_not_ok {s : State} (h : ¬ s.DatagramOk) :
    ∃ d, s.wfDgram = (none, { s with draws := d }) ∧ s.draws ≤ d := by
  by_cases h0 : s.HeaderOk .inB
  · refine ⟨s.draws + 3, ?_, by omega⟩
    have e : (Memory.be16 s.inBuf (s.draws + 1) 2).toNat = s.totalLength := by rw [toNat_be16]
    have : ¬ (4 * s.ihl .inB ≤ s.totalLength ∧ s.totalLength ≤ s.inLen.toNat) := fun h2 => h ⟨h0, h2.1, h2.2⟩
    simp [State.wfDgram, State.wfHdr_of_ok h0, offTotalLength, e, this]
  · obtain ⟨d, hd, hle⟩ := State.wfHdr_of_not_ok h0
    exact ⟨d, by simp [State.wfDgram, hd], hle⟩

/-! ### Commands -/

/-- Everything CSUM.ADD can do (R68). -/
theorem csumAdd_cases (b : Buf) (s : State) :
    (s.cfg.bufBytes < s.argOff + s.argCount ∧ csumAdd b s = s.raise .range) ∨
    (s.argOff + s.argCount ≤ s.cfg.bufBytes ∧
      csumAdd b s = { s with
        draws := s.draws + s.argCount
        acc := ocsum s.acc (Memory.bytes (s.buf b) s.draws s.argOff s.argCount)
        res0 := zext32 (complement16 (ocsum s.acc (Memory.bytes (s.buf b) s.draws s.argOff s.argCount)))
        status := s.ended 0 }) := by
  by_cases h : s.cfg.bufBytes < s.argOff + s.argCount
  · exact .inl ⟨h, by simp [csumAdd, h]⟩
  · exact .inr ⟨by omega, by simp [csumAdd, h, State.finish]⟩

/-- Everything CSUM.VAL can do (R69). -/
theorem csumVal_cases (b : Buf) (s : State) :
    (¬ s.HeaderOk b ∧ ∃ d, csumVal b s = ({ s with draws := d } : State).raise .malformed ∧ s.draws ≤ d) ∨
    (s.HeaderOk b ∧ ∃ h st, h = Memory.bytes (s.buf b) (s.draws + 1) 0 (4 * s.ihl b) ∧
      st = Memory.be16 (s.buf b) (s.draws + 1 + 4 * s.ihl b) 10 ∧
      csumVal b s = { s with
        draws := s.draws + 1 + 4 * s.ihl b + 2
        acc := hsum h
        res0 := zext32 (complement16 (hsum h))
        res1 := zext32 st
        status := { s.ended 0 with csumOk := st == 0 || st == complement16 (hsum h) } }) := by
  by_cases h : s.HeaderOk b
  · exact .inr ⟨h, _, _, rfl, rfl, by
      simp [csumVal, State.wfHdr_of_ok h, State.finish, State.setCsumOk, offChecksum]⟩
  · obtain ⟨d, hd, hle⟩ := State.wfHdr_of_not_ok h
    exact .inl ⟨h, d, by simp [csumVal, hd], hle⟩

/-- Everything CSUM.FIX can do (R71). -/
theorem csumFix_cases (b : Buf) (s : State) :
    (¬ s.HeaderOk b ∧ ∃ d, csumFix b s = ({ s with draws := d } : State).raise .malformed ∧ s.draws ≤ d) ∨
    (s.HeaderOk b ∧ ∃ h, h = Memory.bytes (s.buf b) (s.draws + 1) 0 (4 * s.ihl b) ∧
      csumFix b s = { s.writeBytes b 10 (bytes16 (complement16 (hsum h))) with
        draws := s.draws + 1 + 4 * s.ihl b
        acc := hsum h
        res0 := zext32 (complement16 (hsum h))
        status := s.ended 0 }) := by
  by_cases h : s.HeaderOk b
  · exact .inr ⟨h, _, rfl, by cases b <;> simp [csumFix, State.wfHdr_of_ok h, State.finish, offChecksum]⟩
  · obtain ⟨d, hd, hle⟩ := State.wfHdr_of_not_ok h
    exact .inl ⟨h, d, by simp [csumFix, hd], hle⟩

/-- Everything HDR.FWD can do (R72). -/
theorem hdrFwd_cases (s : State) :
    (¬ s.DatagramOk ∧ ∃ d, hdrFwd s = ({ s with draws := d } : State).raise .malformed ∧ s.draws ≤ d) ∨
    (s.DatagramOk ∧ ∃ dgram t r, dgram = Memory.bytes s.inBuf (s.draws + 3) 0 s.totalLength ∧
      t = decrementTtl (Memory.byteAt s.inBuf (s.draws + 3 + s.totalLength) 8) ∧
      r = forwardedCopy dgram (s.ihl .inB) t ∧
      hdrFwd s = { s with
        draws := s.draws + 3 + s.totalLength + 1
        outBuf := Memory.setBytes s.outBuf 0 r.2
        outLen := BitVec.ofNat 16 s.totalLength
        res0 := t.setWidth 32
        res1 := zext32 r.1
        status := { s.ended 0 with ttlExp := t == 0 } }) := by
  by_cases h : s.DatagramOk
  · exact .inr ⟨h, _, _, _, rfl, rfl, rfl, by
      simp [hdrFwd, State.wfDgram_of_ok h, State.finish, State.setTtlExp, offTtl]⟩
  · obtain ⟨d, hd, hle⟩ := State.wfDgram_of_not_ok h
    exact .inl ⟨h, d, by simp [hdrFwd, hd], hle⟩

/-- Everything a lookup can do (R78). -/
theorem lpmLookup_cases (key : Word) (s : State) :
    (lpmBest s key = none ∧ lpmLookup key s = { s with res0 := 0, res1 := 0, res2 := 0, status := s.ended 0 }) ∨
    (∃ i, lpmBest s key = some i ∧
      lpmLookup key s = { s with
        res0 := nextHop (s.rtEntry i) key
        res1 := lpmRes1 i (s.rtEntry i)
        res2 := (s.rtEntry i).mask
        status := { s.ended 0 with lpmHit := true } }) := by
  cases h : lpmBest s key with
  | none => exact .inl ⟨rfl, by simp [lpmLookup, h, State.finish]⟩
  | some i => exact .inr ⟨i, rfl, by simp [lpmLookup, h, State.finish, State.setLpmHit]⟩

/-- Everything LPM dst can do before the lookup (R78). -/
theorem lpmDst_cases (s : State) :
    ((s.cfg.bufBytes < s.inLen.toNat ∨ s.inLen.toNat < 20) ∧ lpmDst s = s.raise .malformed) ∨
    (20 ≤ s.inLen.toNat ∧ s.inLen.toNat ≤ s.cfg.bufBytes ∧
      lpmDst s = lpmLookup (Memory.be32 s.inBuf s.draws 16) { s with draws := s.draws + 4 }) := by
  by_cases h : s.cfg.bufBytes < s.inLen.toNat ∨ s.inLen.toNat < 20
  · exact .inl ⟨h, by simp [lpmDst, h]⟩
  · exact .inr ⟨by omega, by omega, by simp [lpmDst, h, offDest]⟩

/-- Everything writing a reply does (R86, R89). -/
theorem writeReply_eq (s : State) (t : Nat) (src dst : Word) (ty co : Byte) (rest : List Byte) :
    ∃ ipc ic, ipc = replyHeaderChecksum (BitVec.ofNat 16 t) src dst ∧ ic = icmpChecksum ty co rest ∧
      writeReply s t src dst ty co rest = { s with
        outBuf := Memory.setBytes s.outBuf 0 (replyBytes (BitVec.ofNat 16 t) ipc src dst ty co ic rest)
        outLen := BitVec.ofNat 16 t
        res0 := zext32 ipc
        res1 := zext32 ic
        status := s.ended 0 } :=
  ⟨_, _, rfl, rfl, by simp [writeReply, State.finish, replyBytes, replyHeader, icmpMessage, bytes16, bytes32]⟩

/-- Everything ICMP.ERR can do (R86, R94). -/
theorem icmpErr_cases (ty co : Byte) (s : State) :
    (s.cfg.nIf ≤ s.argIdx ∧ icmpErr ty co s = s.raise .range) ∨
    (s.argIdx < s.cfg.nIf ∧ (s.ifEntry s.argIdx).v = false ∧ icmpErr ty co s = s.raise .noIf) ∨
    (s.argIdx < s.cfg.nIf ∧ (s.ifEntry s.argIdx).v = true ∧ ¬ s.DatagramOk ∧
      ∃ d, icmpErr ty co s = ({ s with draws := d } : State).raise .malformed ∧ s.draws ≤ d) ∨
    (s.argIdx < s.cfg.nIf ∧ (s.ifEntry s.argIdx).v = true ∧ s.DatagramOk ∧
      ∃ h q, h = 4 * s.ihl .inB ∧ q = min 8 (s.totalLength - h) ∧
        icmpErr ty co s = writeReply { s with draws := s.draws + 7 + h + q } (28 + h + q)
          (s.ifEntry s.argIdx).addr (Memory.be32 s.inBuf (s.draws + 3) 12) ty co
          ([0, 0, 0, 0] ++ Memory.bytes s.inBuf (s.draws + 7) 0 h ++
            Memory.bytes s.inBuf (s.draws + 7 + h) h q)) := by
  by_cases h1 : s.cfg.nIf ≤ s.argIdx
  · exact .inl ⟨h1, by simp [icmpErr, h1]⟩
  · cases h2 : (s.ifEntry s.argIdx).v with
    | false => exact .inr (.inl ⟨by omega, rfl, by simp [icmpErr, h1, h2]⟩)
    | true =>
      by_cases h3 : s.DatagramOk
      · exact .inr (.inr (.inr ⟨by omega, rfl, h3, _, _, rfl, rfl, by
          simp [icmpErr, h1, h2, State.wfDgram_of_ok h3, quoteLen, offSource]⟩))
      · obtain ⟨d, hd, hle⟩ := State.wfDgram_of_not_ok h3
        exact .inr (.inr (.inl ⟨by omega, rfl, h3, d, by simp [icmpErr, h1, h2, hd], hle⟩))

/-- Everything ICMP.ECHO can do (R89, R94). -/
theorem icmpEcho_cases (s : State) :
    ((¬ s.DatagramOk ∨ s.totalLength - 4 * s.ihl .inB < 4) ∧
      ∃ d, icmpEcho s = ({ s with draws := d } : State).raise .malformed ∧ s.draws ≤ d) ∨
    (s.DatagramOk ∧ 4 ≤ s.totalLength - 4 * s.ihl .inB ∧
      (Memory.byteAt s.inBuf (s.draws + 3) 9 ≠ 1 ∨ Memory.byteAt s.inBuf (s.draws + 4) (4 * s.ihl .inB) ≠ 8) ∧
      icmpEcho s = ({ s with draws := s.draws + 5 } : State).raise .notEcho) ∨
    (s.DatagramOk ∧ 4 ≤ s.totalLength - 4 * s.ihl .inB ∧
      Memory.byteAt s.inBuf (s.draws + 3) 9 = 1 ∧ Memory.byteAt s.inBuf (s.draws + 4) (4 * s.ihl .inB) = 8 ∧
      ∃ h m, h = 4 * s.ihl .inB ∧ m = s.totalLength - h ∧
        icmpEcho s = writeReply { s with draws := s.draws + 13 + (m - 4) } (20 + m)
          (Memory.be32 s.inBuf (s.draws + 5) 16) (Memory.be32 s.inBuf (s.draws + 9) 12) 0 0
          (Memory.bytes s.inBuf (s.draws + 13) (h + 4) (m - 4))) := by
  by_cases h1 : s.DatagramOk
  · by_cases h2 : s.totalLength - 4 * s.ihl .inB < 4
    · exact .inl ⟨.inr h2, s.draws + 3, by
        unfold icmpEcho
        simp only [State.wfDgram_of_ok h1, h2, if_true], by omega⟩
    · refine .inr ?_
      have e : icmpEcho s =
          if Memory.byteAt s.inBuf (s.draws + 3) 9 ≠ 1 ∨ Memory.byteAt s.inBuf (s.draws + 4) (4 * s.ihl .inB) ≠ 8 then
            ({ s with draws := s.draws + 5 } : State).raise .notEcho
          else writeReply { s with draws := s.draws + 13 + (s.totalLength - 4 * s.ihl .inB - 4) }
            (20 + (s.totalLength - 4 * s.ihl .inB))
            (Memory.be32 s.inBuf (s.draws + 5) 16) (Memory.be32 s.inBuf (s.draws + 9) 12) 0 0
            (Memory.bytes s.inBuf (s.draws + 13) (4 * s.ihl .inB + 4) (s.totalLength - 4 * s.ihl .inB - 4)) := by
        simp only [icmpEcho, State.wfDgram_of_ok h1, if_neg h2, State.readByte_eq, State.read32_eq, State.readBytes_eq,
          State.buf_inB, Nat.add_assoc, Nat.reduceAdd, offProtocol, offDest, offSource]
      by_cases h3 : Memory.byteAt s.inBuf (s.draws + 3) 9 ≠ 1 ∨
          Memory.byteAt s.inBuf (s.draws + 4) (4 * s.ihl .inB) ≠ 8
      · exact .inl ⟨h1, by omega, h3, by rw [e, if_pos h3]⟩
      · refine .inr ⟨h1, by omega, ?_, ?_, _, _, rfl, rfl, by rw [e, if_neg h3]⟩
        · exact not_not.mp fun h => h3 (.inl h)
        · exact not_not.mp fun h => h3 (.inr h)
  · obtain ⟨d, hd, hle⟩ := State.wfDgram_of_not_ok h1
    exact .inl ⟨.inl h1, d, by simp [icmpEcho, hd], hle⟩

/-! ### The step -/

/-- Everything a host access can do (R38, R106). -/
theorem hostAccess_cases (x : HostAccess) (s : State) :
    (x.width ≠ 4 ∧ hostAccess x s = .refused .wrongWidth) ∨
    (x.width = 4 ∧ x.addr.toNat % 4 ≠ 0 ∧ hostAccess x s = .refused .misaligned) ∨
    (x.wf = true ∧ s.status.busy = true ∧ isStatusRead x = false ∧ hostAccess x s = .refused .busyHazard) ∨
    (x.wf = true ∧ (s.status.busy = true → isStatusRead x = true) ∧ hostAccess x s = .next (s.perform x)) := by
  by_cases h1 : x.width = 4
  · by_cases h2 : x.addr.toNat % 4 = 0
    · by_cases h3 : s.status.busy = true ∧ isStatusRead x = false
      · exact .inr (.inr (.inl ⟨by simp [HostAccess.wf, HostAccess.widthOk, HostAccess.aligned, h1, h2], h3.1, h3.2,
          by simp [hostAccess, HostAccess.widthOk, HostAccess.aligned, h1, h2, h3]⟩))
      · refine .inr (.inr (.inr ⟨by simp [HostAccess.wf, HostAccess.widthOk, HostAccess.aligned, h1, h2], ?_,
          by simp [hostAccess, HostAccess.widthOk, HostAccess.aligned, h1, h2, h3]⟩))
        intro hb
        cases h : isStatusRead x with
        | true => rfl
        | false => exact absurd ⟨hb, h⟩ h3
    · exact .inr (.inl ⟨h1, h2, by simp [hostAccess, HostAccess.widthOk, HostAccess.aligned, h1, h2]⟩)
  · exact .inl ⟨h1, by simp [hostAccess, HostAccess.widthOk, h1]⟩

/-- Everything a Block turn can do (R13, R45, R55). -/
theorem blockTurn_cases (s : State) :
    (s.status.busy = false ∧ blockTurn s = .next s) ∨
    (s.status.busy = true ∧ ∃ i, decode s.cmd = .ok i ∧ blockTurn s = exec i s) ∨
    (s.status.busy = true ∧ ∃ e, decode s.cmd = .error e ∧ blockTurn s = .next (s.raise .illegal)) := by
  cases hb : s.status.busy with
  | false => exact .inl ⟨rfl, by simp [blockTurn, hb]⟩
  | true =>
    cases hd : decode s.cmd with
    | ok i => exact .inr (.inl ⟨rfl, i, rfl, by simp [blockTurn, hb, runCommand, hd]⟩)
    | error e => exact .inr (.inr ⟨rfl, e, rfl, by simp [blockTurn, hb, runCommand, hd]⟩)

/-- Everything a step can do (R13, R45, R102). -/
theorem step_cases (s : State) :
    (s.agenda = [] ∧ step s = blockTurn s) ∨
    (∃ rest, s.agenda = .block :: rest ∧ step s = blockTurn { s with agenda := rest }) ∨
    (∃ x rest, s.agenda = .host x :: rest ∧ step s = hostAccess x { s with agenda := rest }) ∨
    (∃ rest, s.agenda = .reset :: rest ∧ step s = .next ({ s with agenda := rest } : State).applyReset) := by
  cases h : s.agenda with
  | nil => exact .inl ⟨rfl, by simp [step, h]⟩
  | cons t rest =>
    cases t with
    | block => exact .inr (.inl ⟨rest, rfl, by simp [step, h]⟩)
    | host x => exact .inr (.inr (.inl ⟨x, rest, rfl, by simp [step, h]⟩))
    | reset => exact .inr (.inr (.inr ⟨rest, rfl, by simp [step, h]⟩))

/-! ### Runs -/

/-- A run of one step more begins with that step. -/
theorem core_run_succ (M : Host.Core) {s t : M.State} (h : M.step s = .next t) (n : Nat) :
    M.run (n + 1) s = M.run n t := by
  simp only [Host.Core.run, h]

/-- A run of the block of one step more begins with that step. -/
theorem run_succ {s t : State} (h : step s = .next t) (n : Nat) :
    Host.Core.run Sys2Proof.core (n + 1) s = Host.Core.run Sys2Proof.core n t :=
  core_run_succ Sys2Proof.core h n

theorem run_zero (s : State) : Host.Core.run Sys2Proof.core 0 s = .next s := rfl

end Sys2Proof.Machine
end

