-- ==== Sys2Proof/Laws/PerInstr.lean ====
section
/-!
SUPPORT. One statement about every command as syntax: its word has legal fields (30_encoding.md R50, R52), and is among
the words of R54 once.
-/

namespace Sys2Proof.Laws.LegalWord

/-- R52: the fields of the command's word are legal, and the command is listed once. -/
def Statement (i : Instr) : Prop :=
  i.wf = true ∧ (splitWord (encode i)).wf = true ∧ splitWord (encode i) = fieldsOf i ∧ Instr.all.count i = 1

theorem csumClr : Statement .csumClr := by unfold Statement; decide
theorem csumAddIn : Statement .csumAddIn := by unfold Statement; decide
theorem csumAddOut : Statement .csumAddOut := by unfold Statement; decide
theorem csumValIn : Statement .csumValIn := by unfold Statement; decide
theorem csumValOut : Statement .csumValOut := by unfold Statement; decide
theorem csumFixIn : Statement .csumFixIn := by unfold Statement; decide
theorem csumFixOut : Statement .csumFixOut := by unfold Statement; decide
theorem hdrFwd : Statement .hdrFwd := by unfold Statement; decide
theorem lpmArg : Statement .lpmArg := by unfold Statement; decide
theorem lpmDst : Statement .lpmDst := by unfold Statement; decide
theorem icmpErrTx : Statement .icmpErrTx := by unfold Statement; decide
theorem icmpErrNet : Statement .icmpErrNet := by unfold Statement; decide
theorem icmpErrPort : Statement .icmpErrPort := by unfold Statement; decide
theorem icmpEcho : Statement .icmpEcho := by unfold Statement; decide

end Sys2Proof.Laws.LegalWord
end

