-- ==== Sys2Proof/Tests/Slice0.lean ====
section
/-!
SUPPORT. Tests. Expected values come from the spec: the words of 30_encoding.md written out bit by bit from the fields
of R50, and the vectors of 95_test_vectors.md, named in each comment. The last part shows, for every statement with
hypotheses, concrete states and operands that meet them together, at the boundaries of each clause.
-/

namespace Sys2Proof.Machine.Tests

/-! ### Small states -/

/-- Small legal parameters, enough for the vectors used here. -/
def small : Config.Params := { bufBytes := 96, nRt := 8, nIf := 4 }

/-- 95_test_vectors.md section 0.2: the interface and route tables, V = 0 where the spec leaves an entry out. -/
def base : State :=
  { State.resetWith small with
    status := Status.issued
    ift := [⟨0x0A000001, true⟩, ⟨0xC0A80101, true⟩, ⟨0xAC100001, true⟩, ⟨0, false⟩]
    rt := [⟨0x0A000000, 0xFF000000, 0, 0, true⟩, ⟨0xC0A80000, 0xFFFF0000, 0xAC100002, 2, true⟩,
      ⟨0xC0A80700, 0xFFFFFF00, 0, 1, true⟩, ⟨0xAC100000, 0xFFFF0000, 0, 2, true⟩, ⟨0, 0, 0, 0, false⟩,
      ⟨0xC0A80700, 0xFFFFFF00, 0xC0A801FE, 1, true⟩, ⟨0x0A000005, 0xFF0000FF, 0x0A0000FE, 0, true⟩,
      ⟨0xAC106363, 0xFFFF0000, 0xAC100009, 2, true⟩] }

/-- A state with a datagram in IN. -/
def withIn (bs : List Byte) : State :=
  { base with inBuf := Memory.setBytes [] 0 bs, inLen := BitVec.ofNat 16 bs.length }

/-- A state with a datagram in OUT. -/
def withOut (bs : List Byte) : State :=
  { base with outBuf := Memory.setBytes [] 0 bs, outLen := BitVec.ofNat 16 bs.length }

/-- Datagram A. -/
def dgA : List Byte :=
  [0x45, 0x00, 0x00, 0x20, 0x1c, 0x46, 0x00, 0x00, 0x40, 0x11, 0x4a, 0x85, 0x0a, 0x00, 0x00, 0x02, 0x0a, 0x00, 0x00, 0x01,
    0xd4, 0x31, 0x00, 0x35, 0x00, 0x00, 0x00, 0x00, 0x68, 0x69, 0x21, 0x21]

/-- Datagram B. -/
def dgB : List Byte :=
  [0x45, 0x00, 0x00, 0x19, 0xab, 0xcd, 0x00, 0x00, 0x01, 0x11, 0x52, 0xec, 0x0a, 0x00, 0x00, 0x02, 0xac, 0x10, 0x05, 0x09,
    0x01, 0x02, 0x03, 0x04, 0x05]

/-- Datagram C. -/
def dgC : List Byte :=
  [0x45, 0x00, 0x00, 0x21, 0x01, 0x02, 0x00, 0x00, 0x40, 0x01, 0x65, 0xd8, 0x0a, 0x00, 0x00, 0x02, 0x0a, 0x00, 0x00, 0x01,
    0x08, 0x00, 0xbc, 0x03, 0x12, 0x34, 0x00, 0x01, 0x61, 0x62, 0x63, 0x64, 0x65]

/-- Datagram E. -/
def dgE : List Byte :=
  [0x45, 0x00, 0x00, 0x20, 0x00, 0x07, 0x00, 0x00, 0x40, 0x06, 0xa7, 0x1e, 0x0a, 0x00, 0x00, 0x02, 0xc0, 0xa8, 0x09, 0x09,
    0xa0, 0xa1, 0xa2, 0xa3, 0xa4, 0xa5, 0xa6, 0xa7, 0xa8, 0xa9, 0xaa, 0xab]

/-- Datagram M. -/
def dgM : List Byte :=
  [0x45, 0x00, 0x00, 0x18, 0x00, 0x00, 0x00, 0x00, 0x40, 0x01, 0x66, 0xe3, 0x0a, 0x00, 0x00, 0x02, 0x0a, 0x00, 0x00, 0x01,
    0x08, 0x00, 0xf7, 0xff]

/-- The state after one step that fetches and runs a command. -/
def ran (i : Instr) (s : State) : State :=
  match step (s.withFetchWord 32 (encode i).toNat) with
  | .next t => t
  | _ => s

/-- ACC, RES0, RES1, RES2, OUT_LEN and STATUS as the vectors give them. -/
def results (s : State) : List Nat :=
  [s.acc.toNat, s.res0.toNat, s.res1.toNat, s.res2.toNat, s.outLen.toNat, s.status.toWord.toNat]

/-- The bytes at the given offsets of a buffer. -/
def bytesAt (s : State) (b : Buf) (offsets : List Nat) : List (Option Byte) := offsets.map fun a => s.cell b a

/-! ### Ill-formed terms, one for each check -/

/-- R7, one clause each: not a multiple of 4, too small, too large, no or too many routes, no or too many interfaces. -/
theorem test_illegal_params_refused :
    ([⟨98, 1, 1⟩, ⟨92, 1, 1⟩, ⟨16388, 1, 1⟩, ⟨96, 0, 1⟩, ⟨96, 257, 1⟩, ⟨96, 1, 0⟩, ⟨96, 1, 33⟩] :
      List Config.Params).all (fun p => !p.legal) = true := by decide

/-- R7: the least and the greatest legal values, and those of the vectors. -/
theorem test_legal_params_accepted :
    ([⟨96, 1, 1⟩, ⟨16384, 256, 32⟩, Config.vectorParams, small] : List Config.Params).all (fun p => p.legal) = true := by
  decide

/-- R52: OP 0x00 and OP 0x06 are not assigned. -/
theorem test_unassigned_op_refused :
    (splitWord 0x00000000).opAssigned = false ∧ (splitWord 0x00000006).wf = false := by decide

/-- R50: RSV must be 0. -/
theorem test_reserved_bits_refused :
    (splitWord 0x00000401).wf = false ∧ (splitWord 0x80000001).wf = false := by decide

/-- R55: F = 1 for CSUM.CLR, F = 2 for CSUM.ADD, ESEL = 3. -/
theorem test_unlisted_function_refused :
    (splitWord 0x00000101).fListed = false ∧ (splitWord 0x00000202).wf = false ∧
      (splitWord 0x00000320).wf = false := by decide

/-- R38: a byte read and a misaligned write are outside the protocol. -/
theorem test_ill_formed_access_refused :
    (HostAccess.read 0x0004 1).widthOk = false ∧ (HostAccess.write 0x0006 4 0).aligned = false ∧
      hostAccess (.read 0x0004 1) State.reset = .refused .wrongWidth ∧
      hostAccess (.write 0x0006 4 0) State.reset = .refused .misaligned := ⟨rfl, rfl, rfl, rfl⟩

/-- R106: while BUSY = 1 a write, and a read of another address, are refused; a read of STATUS is not. -/
theorem test_busy_hazard_refused :
    hostAccess (.write 0x0008 4 0) base = .refused .busyHazard ∧
      hostAccess (.read 0x0000 4) base = .refused .busyHazard ∧
      hostAccess (.read 0x0004 4) base = .next { base with lastRead := some 0x00000001 } := ⟨rfl, rfl, rfl⟩

/-! ### Decoding: each word written out as RSV, F, OP -/

/-- R50, R52: OP 0x01. -/
theorem test_decode_csum_clr : decode 0b00000000000000000000000000000001#32 = .ok .csumClr := by decide

/-- R50, R52: OP 0x02, B in bit 8. -/
theorem test_decode_csum_add : decode 0b00000000000000000000000000000010#32 = .ok .csumAddIn ∧
    decode 0b00000000000000000000000100000010#32 = .ok .csumAddOut := by decide

/-- R50, R52: OP 0x03, B in bit 8. -/
theorem test_decode_csum_val : decode 0b00000000000000000000000000000011#32 = .ok .csumValIn ∧
    decode 0b00000000000000000000000100000011#32 = .ok .csumValOut := by decide

/-- R50, R52: OP 0x04, B in bit 8. -/
theorem test_decode_csum_fix : decode 0b00000000000000000000000000000100#32 = .ok .csumFixIn ∧
    decode 0b00000000000000000000000100000100#32 = .ok .csumFixOut := by decide

/-- R50, R52: OP 0x05. -/
theorem test_decode_hdr_fwd : decode 0b00000000000000000000000000000101#32 = .ok .hdrFwd := by decide

/-- R50, R52: OP 0x10, K in bit 8. -/
theorem test_decode_lpm : decode 0b00000000000000000000000000010000#32 = .ok .lpmArg ∧
    decode 0b00000000000000000000000100010000#32 = .ok .lpmDst := by decide

/-- R50, R52, R53: OP 0x20, ESEL in bits 9:8. -/
theorem test_decode_icmp_err : decode 0b00000000000000000000000000100000#32 = .ok .icmpErrTx ∧
    decode 0b00000000000000000000000100100000#32 = .ok .icmpErrNet ∧
    decode 0b00000000000000000000001000100000#32 = .ok .icmpErrPort := by decide

/-- R50, R52: OP 0x21. -/
theorem test_decode_icmp_echo : decode 0b00000000000000000000000000100001#32 = .ok .icmpEcho := by decide

/-- R55: the three reasons a word is illegal; the table's numbering of a word. -/
theorem test_decode_illegal : decode 0x00000000 = .error .unassignedOp ∧
    decode 0x00000320 = .error .illegalFunction ∧ decode 0x00000405 = .error .reservedBits ∧
    decodeTableWord 32 0x220 = some .icmpErrPort ∧ decodeTableWord 32 0x320 = none := by decide

/-! ### One step of each command -/

/-- V-CLR-1. -/
theorem test_csum_clr : results (ran .csumClr { base with acc := 0xB57A, res0 := 0x00004A85 }) =
    [0x0000, 0x00004A85, 0, 0, 0, 0x00000000] := by decide +kernel

/-- V-ADD-2: an odd count. -/
theorem test_csum_add_in : results (ran .csumAddIn { withIn dgA with arg0 := 0, arg1 := 3 }) =
    [0x4500, 0x0000BAFF, 0, 0, 0, 0x00000000] := by decide +kernel

/-- R68: past the buffer's end, E_RANGE and nothing written. -/
theorem test_csum_add_in_range : results (ran .csumAddIn { withIn dgA with acc := 0x1234, arg0 := 95, arg1 := 2 }) =
    [0x1234, 0, 0, 0, 0, 0x00000020] := by decide +kernel

/-- V-ADD-1, on OUT (R51: B = 1). -/
theorem test_csum_add_out : results (ran .csumAddOut { withOut dgA with arg0 := 0, arg1 := 20 }) =
    [0xFFFF, 0, 0, 0, 32, 0x00000000] := by decide +kernel

/-- V-VAL-1. -/
theorem test_csum_val_in : results (ran .csumValIn (withIn dgA)) =
    [0xB57A, 0x00004A85, 0x00004A85, 0, 0, 0x00000100] := by decide +kernel

/-- V-VAL-7 and V-VAL-8: a stored zero passes, a wrong byte does not. -/
theorem test_csum_val_in_stored :
    results (ran .csumValIn (withIn ((dgA.set 10 0x00).set 11 0x00))) = [0xB57A, 0x00004A85, 0, 0, 0, 0x00000100] ∧
    results (ran .csumValIn (withIn (dgA.set 11 0x84))) = [0xB57A, 0x00004A85, 0x00004A84, 0, 0, 0x00000000] := by
  decide +kernel

/-- V-VAL-17. -/
theorem test_csum_val_out : results (ran .csumValOut (withOut dgA)) =
    [0xB57A, 0x00004A85, 0x00004A85, 0, 32, 0x00000100] := by decide +kernel

/-- V-FIX-1. -/
theorem test_csum_fix_in : results (ran .csumFixIn (withIn (dgA.set 8 0x3f))) = [0xB47A, 0x00004B85, 0, 0, 0, 0] ∧
    bytesAt (ran .csumFixIn (withIn (dgA.set 8 0x3f))) .inB [8, 9, 10, 11] =
      [some 0x3f, some 0x11, some 0x4b, some 0x85] := by decide +kernel

/-- V-FIX-1, on OUT (R51: B = 1). -/
theorem test_csum_fix_out : bytesAt (ran .csumFixOut (withOut (dgA.set 8 0x3f))) .outB [8, 9, 10, 11] =
    [some 0x3f, some 0x11, some 0x4b, some 0x85] := by decide +kernel

/-- V-FWD-4. -/
theorem test_hdr_fwd : results (ran .hdrFwd (withIn dgE)) = [0, 0x0000003F, 0x0000A81E, 0, 32, 0x00000000] ∧
    bytesAt (ran .hdrFwd (withIn dgE)) .outB [7, 8, 9, 10, 11, 31, 32] =
      [some 0x00, some 0x3f, some 0x06, some 0xa8, some 0x1e, some 0xab, none] := by decide +kernel

/-- V-FWD-2 and V-FWD-6: TTL 1 expires, TTL 0 wraps to 255. -/
theorem test_hdr_fwd_ttl : results (ran .hdrFwd (withIn dgB)) = [0, 0x00000000, 0x000053EC, 0, 25, 0x00000200] ∧
    results (ran .hdrFwd (withIn (((dgE.set 8 0x00).set 10 0xe7).set 11 0x1e))) =
      [0, 0x000000FF, 0x0000E81D, 0, 32, 0x00000000] := by decide +kernel

/-- V-LPM-2 and V-LPM-4: the tie goes to the lower index; a miss. -/
theorem test_lpm_arg : results (ran .lpmArg { base with arg0 := 0xC0A80714 }) =
      [0, 0xC0A80714, 0x80020001, 0xFFFFFF00, 0, 0x00000400] ∧
    results (ran .lpmArg { base with arg0 := 0x08080808, res2 := 5 }) = [0, 0, 0, 0, 0, 0x00000000] := by decide +kernel

/-- V-LPM-5: a non-contiguous mask. -/
theorem test_lpm_arg_count : results (ran .lpmArg { base with arg0 := 0x0A010205 }) =
    [0, 0x0A0000FE, 0x80060000, 0xFF0000FF, 0, 0x00000400] := by decide +kernel

/-- V-LPM-13. -/
theorem test_lpm_dst : results (ran .lpmDst (withIn dgE)) =
    [0, 0xAC100002, 0x80010002, 0xFFFF0000, 0, 0x00000400] := by decide +kernel

/-- V-LPM-15. -/
theorem test_lpm_dst_length : results (ran .lpmDst { withIn dgE with inLen := 10 }) =
    [0, 0, 0, 0, 0, 0x00000030] := by decide +kernel

/-- V-ERR-2, with its OUT bytes 20 to 23 and its last byte. -/
theorem test_icmp_err_tx : results (ran .icmpErrTx (withIn dgB)) = [0, 0x000066C6, 0x0000EBF9, 0, 53, 0] ∧
    bytesAt (ran .icmpErrTx (withIn dgB)) .outB [20, 21, 22, 23, 27, 28, 52, 53] =
      [some 0x0b, some 0x00, some 0xeb, some 0xf9, some 0x00, some 0x45, some 0x05, none] := by decide +kernel

/-- V-ERR-7 and R86: an invalid entry, then an index outside the table. -/
theorem test_icmp_err_tx_errors : results (ran .icmpErrTx { withIn dgA with arg0 := 3 }) = [0, 0, 0, 0, 0, 0x50] ∧
    results (ran .icmpErrTx { withIn dgA with arg0 := 4 }) = [0, 0, 0, 0, 0, 0x20] := by decide +kernel

/-- V-ERR-4. -/
theorem test_icmp_err_net : results (ran .icmpErrNet (withIn dgE)) = [0, 0x000066C3, 0x00006E6D, 0, 56, 0] := by
  decide +kernel

/-- V-ERR-1. -/
theorem test_icmp_err_port : results (ran .icmpErrPort (withIn dgA)) = [0, 0x000066C3, 0x00002896, 0, 56, 0] := by
  decide +kernel

/-- R89, example: datagram C. -/
theorem test_icmp_echo : results (ran .icmpEcho (withIn dgC)) = [0, 0x000066DA, 0x0000C403, 0, 33, 0] ∧
    bytesAt (ran .icmpEcho (withIn dgC)) .outB [20, 21, 22, 23, 24, 32, 33] =
      [some 0x00, some 0x00, some 0xc4, some 0x03, some 0x12, some 0x65, none] := by decide +kernel

/-- R89, corner cases: the shortest message, and a datagram that is no echo request. -/
theorem test_icmp_echo_corners : bytesAt (ran .icmpEcho (withIn dgM)) .outB [20, 21, 22, 23, 24] =
      [some 0x00, some 0x00, some 0xff, some 0xff, none] ∧
    results (ran .icmpEcho (withIn dgA)) = [0, 0, 0, 0, 0, 0x40] := by decide +kernel

/-! ### The accumulator, the port, fetching -/

/-- V-OC-1 to V-OC-8. -/
theorem test_ocadd : [ocadd 0x0000 0x0000, ocadd 0xFFFF 0x0000, ocadd 0xFFFF 0xFFFF, ocadd 0x0001 0xFFFE,
      ocadd 0x0002 0xFFFE, ocadd 0x8000 0x8000, ocadd 0xFFFF 0x0001, ocadd 0x1234 0xEDCB] =
    [0x0000, 0xFFFF, 0xFFFF, 0xFFFF, 0x0001, 0x0001, 0x0001, 0xFFFF] := by decide +kernel

/-- R42: a host read of datagram A's first word; R36: an unmapped address; R22: CFG1. -/
theorem test_port_reads : ((withIn dgA).memRead 0x4000).lastRead = some 0x45000020 ∧
    ((withIn dgA).memRead 0x0030).lastRead = some 0x00000000 ∧
    ((withIn dgA).memRead 0x002C).lastRead = some 0x00040008 := by decide +kernel

/-- R55, V-ERR-16: the word with ESEL = 3, run as the first command after reset. -/
theorem test_first_command_illegal :
    step (State.reset.withFetchWord 32 0x320) =
      .next { State.reset with cmd := 0x320, status := { Status.zero with err := 1 } } := rfl

/-- R67: CSUM.CLR run as the first command after reset. -/
theorem test_first_command_runs :
    step (State.reset.withFetchWord 32 0x001) = .next { State.reset with cmd := 0x001 } := rfl

/-! ### Witnesses: the hypotheses of every statement that has any, met together -/

/-- The state a command leaves, read off its meaning. -/
def left (i : Instr) (s : State) : State :=
  match exec i s with
  | .next t => t
  | _ => s

/-- The state a step leaves. -/
def stepped (s : State) : State :=
  match step s with
  | .next t => t
  | _ => s

/-- Datagram E cut to its header, with the totalLength 0x0014 of V-FWD-9 and V-ERR-13. -/
def dgE20 : List Byte := (dgE.set 3 0x14).take 20

/-- Datagram M cut by one byte, with the totalLength 0x0017 of V-ECHO-8. -/
def dgM23 : List Byte := (dgM.set 3 0x17).take 23

/-- The datagram of V-ERR-15: IHL 15 and 8 payload bytes. -/
def dgLong : List Byte :=
  [0x4f, 0x00, 0x00, 0x44, 0x00, 0x00, 0x00, 0x00, 0x40, 0x11, 0x5c, 0xa7, 0x0a, 0x00, 0x00, 0x02, 0x0a, 0x00, 0x00, 0x01] ++
    List.replicate 40 0x00 ++ [0x01, 0x02, 0x03, 0x04, 0x05, 0x06, 0x07, 0x08]

/-- `base` with no command pending. -/
def idle : State := { base with status := Status.zero }

theorem test_witness_DecodeEncodeAgree : decode 0x00000220 = .ok .icmpErrPort := by decide

theorem test_witness_WordsWrittenOutDecode : ((0x00000001 : Word), Instr.csumClr) ∈
    ([(0x00000001, .csumClr), (0x00000021, .icmpEcho)] : List (Word × Instr)) := by decide

/-- Each clause: OP 0x00 and 0xFF, RSV at bits 10 and 31, F = 2 and 3, F = 1, ESEL = 3; and an idle state. -/
theorem test_witness_IllegalWordsReportOnlyEIllegal :
    ([0x00000000, 0x000000FF, 0x00000401, 0x80000001, 0x00000202, 0x00000303, 0x00000101, 0x00000320] : List Word).all
      (fun w => match decode w with
        | .error _ => true
        | .ok _ => false) = true ∧ idle.status.busy = false := by decide

theorem test_witness_AssemblingATextGivesItsWord : asmText .lpmDst = asmText .lpmDst := rfl

/-- With no turn left, and with a Block turn. -/
theorem test_witness_StepRunsTheDecodedCommand :
    (let s := State.reset.withFetchWord 32 0x001;
      s.status.busy = true ∧ decode s.cmd = .ok .csumClr ∧ s.agenda = [] ∧ exec .csumClr s = .next (left .csumClr s)) ∧
    (let s := { State.reset.withFetchWord 32 0x005 with agenda := [.block, .reset] };
      s.status.busy = true ∧ decode s.cmd = .ok .hdrFwd ∧ s.agenda = .block :: [.reset]) := by
  refine ⟨⟨?_, ?_, ?_, rfl⟩, ?_, ?_, ?_⟩ <;> decide

/-- A pending command, a host write to the last route word, a host write to the last buffer word, and a reset turn. -/
theorem test_witness_EveryStepKeepsTheInvariant :
    (let s := { withIn dgE with cmd := encode .hdrFwd };
      s.Inv ∧ step s = .next (stepped s) ∧ (stepped s).outLen = 32) ∧
    (let s := { idle with agenda := [.host (.write 0x107C 4 5)] };
      s.Inv ∧ step s = .next (stepped s)) ∧
    (let s := { idle with agenda := [.host (.write 0x405C 4 5)] };
      s.Inv ∧ step s = .next (stepped s)) ∧
    (let s := { withIn dgE with agenda := [.reset] };
      s.Inv ∧ step s = .next (stepped s)) := by
  refine ⟨⟨?_, rfl, ?_⟩, ⟨?_, rfl⟩, ⟨?_, rfl⟩, ⟨?_, rfl⟩⟩ <;> decide +kernel

theorem test_witness_ResetHasTheInvariant :
    ([⟨96, 1, 1⟩, ⟨16384, 256, 32⟩] : List Config.Params).all (fun p => p.legal) = true := by decide

theorem test_witness_ResetTurnAbandonsThePendingCommand :
    ({ withIn dgE with agenda := [.reset, .block] } : State).agenda = .reset :: [.block] ∧
      (withIn dgE).status.busy = true := by decide

/-- The refused side at each reason, and the other side at the one access allowed while BUSY = 1. -/
theorem test_witness_OnlyOutOfProtocolAccessesAreRefused :
    step { idle with agenda := [.host (.read 0x0004 2)] } = .refused .wrongWidth ∧
    step { idle with agenda := [.host (.read 0x0005 4)] } = .refused .misaligned ∧
    step { base with agenda := [.host (.write 0x0004 4 0)] } = .refused .busyHazard ∧
    step { base with agenda := [.host (.read 0x0004 4)] } = .next { base with lastRead := some 0x00000001 } :=
  ⟨rfl, rfl, rfl, rfl⟩

/-- No poll and no turn left; two polls and a Block turn. -/
theorem test_witness_PendingCommandCompletesUnderPolling :
    (base.status.busy = true ∧ base.agenda = List.replicate 0 (.host (.read 0x0004 4)) ++ []) ∧
    (let s := { base with agenda := [.host (.read 0x0004 4), .host (.read 0x0004 4), .block] };
      s.status.busy = true ∧ s.agenda = List.replicate 2 (.host (.read 0x0004 4)) ++ [.block] ∧
        ([.block] : List Turn) = .block :: []) := by decide

/-- Codes 2 to 5, and a pending illegal word. -/
theorem test_witness_ErrorWritesOnlyStatus :
    (let s := { base with arg0 := 97 };
      exec .csumAddIn s = .next (left .csumAddIn s) ∧ (left .csumAddIn s).status.err = 2) ∧
    (exec .lpmDst base = .next (left .lpmDst base) ∧ (left .lpmDst base).status.err = 3) ∧
    (exec .icmpEcho (withIn dgA) = .next (left .icmpEcho (withIn dgA)) ∧ (left .icmpEcho (withIn dgA)).status.err = 4) ∧
    (let s := { withIn dgA with arg0 := 3 };
      exec .icmpErrNet s = .next (left .icmpErrNet s) ∧ (left .icmpErrNet s).status.err = 5) ∧
    base.status.busy = true ∧ decode base.cmd = .error .unassignedOp := by
  refine ⟨⟨rfl, ?_⟩, ⟨rfl, ?_⟩, ⟨rfl, ?_⟩, ⟨rfl, ?_⟩, ?_, ?_⟩ <;> decide +kernel

/-- Each premise: ACC, RES0 and RES1 and CSUM_OK by CSUM.VAL, RES2 and LPM_HIT by LPM, OUT_LEN and OUT and TTL_EXP by
HDR.FWD, IN by CSUM.FIX in, OUT by CSUM.FIX out. -/
theorem test_witness_CommandsWriteOnlyTheirResults :
    (let t := left .csumValIn (withIn dgA);
      exec .csumValIn (withIn dgA) = .next t ∧ t.acc ≠ 0 ∧ t.res0 ≠ 0 ∧ t.res1 ≠ 0 ∧ t.status.csumOk ≠ false) ∧
    (let s := { base with arg0 := 0x0A010203 };
      let t := left .lpmArg s;
      exec .lpmArg s = .next t ∧ t.res2 ≠ s.res2 ∧ t.status.lpmHit ≠ s.status.lpmHit) ∧
    (let t := left .hdrFwd (withIn dgB);
      exec .hdrFwd (withIn dgB) = .next t ∧ t.outLen ≠ (withIn dgB).outLen ∧
        t.status.ttlExp ≠ (withIn dgB).status.ttlExp ∧ t.cell .outB 24 ≠ (withIn dgB).cell .outB 24) ∧
    (let s := withIn (dgA.set 8 0x3f);
      exec .csumFixIn s = .next (left .csumFixIn s) ∧ (left .csumFixIn s).cell .inB 10 ≠ s.cell .inB 10) ∧
    (let s := withOut (dgA.set 10 0x3f);
      exec .csumFixOut s = .next (left .csumFixOut s) ∧ (left .csumFixOut s).cell .outB 10 ≠ s.cell .outB 10) := by
  refine ⟨⟨rfl, ?_⟩, ⟨rfl, ?_⟩, ⟨rfl, ?_⟩, ⟨rfl, ?_⟩, ⟨rfl, ?_⟩⟩ <;> decide +kernel

theorem test_witness_ReadNumbersAreNeverReused :
    step { idle with agenda := [.host (.read 0x4000 4)] } =
      .next (stepped { idle with agenda := [.host (.read 0x4000 4)] }) ∧
    (stepped { idle with agenda := [.host (.read 0x4000 4)] }).draws = 4 := ⟨rfl, rfl⟩

/-- A STATUS read while a command is pending; a read and a write while none is. -/
theorem test_witness_HostTurnInsideTheProtocolTakesEffect :
    (0x0004 : PortAddr).toNat % 4 = 0 ∧ (0xFFFC : PortAddr).toNat % 4 = 0 ∧
    (let s := { base with agenda := [.host (.read 0x0004 4), .block] };
      s.agenda = .host (.read 0x0004 4) :: [.block] ∧ (s.status.busy = true → (0x0004 : PortAddr) = 0x0004)) ∧
    (let s := { idle with agenda := [.host (.read 0xFFFC 4)] };
      s.agenda = .host (.read 0xFFFC 4) :: [] ∧ (s.status.busy = true → (0xFFFC : PortAddr) = 0x0004)) ∧
    (let s := { idle with agenda := [.host (.write 0xFFFC 4 7)] };
      s.agenda = .host (.write 0xFFFC 4 7) :: [] ∧ s.status.busy = false) := by decide

/-- The last place of each window, and unmapped addresses just past them. -/
theorem test_witness_AddressMapSelectsEveryPlace :
    small.legal = true ∧ placeOf small 0x002C = .reg .cfg1 ∧ placeOf small 0x011C = .ift 3 .ctrl ∧
    placeOf small 0x107C = .rt 7 .ctrl ∧ placeOf small 0x405C = .buf .inB 92 ∧ placeOf small 0x805C = .buf .outB 92 ∧
    [placeOf small 0x0030, placeOf small 0x0120, placeOf small 0x1080, placeOf small 0x4060, placeOf small 0x8060,
      placeOf small 0xFFFC] = List.replicate 6 .unmapped ∧
    (0x0030 % 4 = 0 ∧ (∀ r : Reg, 0x0030 ≠ r.addr) ∧
      (∀ i f, i < small.nIf → 0x0030 ≠ 0x0100 + 8 * i + IfField.offset f) ∧
      (∀ i f, i < small.nRt → 0x0030 ≠ 0x1000 + 16 * i + RtField.offset f) ∧
      ∀ b o, o < small.bufBytes → 0x0030 ≠ bufBase b + o) ∧
    (idle.cfg = small ∧ placeOf small (0x4060 : PortAddr).toNat = .unmapped) := by
  refine ⟨rfl, rfl, rfl, rfl, rfl, rfl, rfl, ⟨rfl, ?_, ?_, ?_, ?_⟩, rfl, by decide⟩
  · intro r
    cases r <;> decide
  · intros
    omega
  · intros
    omega
  · intro b o _
    cases b <;> simp only [bufBase] <;> omega

/-- An idle block; and one that has completed an illegal word, which stays in CMD with its reserved bits. -/
theorem test_witness_CmdWriteIssuesACommand : idle.status.busy = false ∧
    (let u := stepped { base with cmd := 0x80000001 };
      u.cmd = 0x80000001 ∧ u.status.busy = false) := ⟨rfl, rfl, rfl⟩

theorem test_witness_ParametersNeverChange : idle.cfg.legal = true ∧ step base = .next (stepped base) := ⟨rfl, rfl⟩

/-- The last entry of each table. -/
theorem test_witness_TableWordsReadBackThroughThePort : idle.Sized ∧ 3 < idle.cfg.nIf ∧ 7 < idle.cfg.nRt := by
  decide +kernel

/-- The first and the last word of a buffer. -/
theorem test_witness_BufferLanesAreBigEndian : idle.cfg.legal = true ∧ (0 % 4 = 0 ∧ 0 < idle.cfg.bufBytes) ∧
    (92 % 4 = 0 ∧ 92 < idle.cfg.bufBytes) := by decide

/-- No byte, five bytes, and a full buffer. -/
theorem test_witness_LdinLoadsTheDatagram : idle.cfg.legal = true ∧ idle.status.busy = false ∧
    (([] : List Byte).length ≤ idle.cfg.bufBytes ∧
      ({ idle with agenda := (Stmt.ldin []).expand } : State).agenda = (Stmt.ldin []).expand ++ []) ∧
    ([1, 2, 3, 4, 5] : List Byte).length ≤ idle.cfg.bufBytes ∧
    (List.replicate 96 (7 : Byte)).length ≤ idle.cfg.bufBytes := by
  refine ⟨rfl, rfl, ⟨by decide, rfl⟩, by decide, by decide⟩

theorem test_witness_TableLoadsWriteOneEntry : idle.Sized ∧ idle.status.busy = false ∧ 3 < idle.cfg.nIf ∧
    ({ idle with agenda := (Stmt.ldif 3 1).expand } : State).agenda = (Stmt.ldif 3 1).expand ++ [] ∧
    7 < idle.cfg.nRt ∧
    ({ idle with agenda := (Stmt.ldroute 7 1 2 3 ((31 : BitVec 5).setWidth 32)).expand } : State).agenda =
      (Stmt.ldroute 7 1 2 3 ((31 : BitVec 5).setWidth 32)).expand ++ [] := by
  refine ⟨by decide +kernel, rfl, by decide, rfl, by decide, rfl⟩

/-- The sum that just fits and the one that just does not. -/
theorem test_witness_OcaddCarriesEndAround :
    (0x1234 : Half).toNat + (0xEDCB : Half).toNat ≤ 0xFFFF ∧
      0xFFFF < (0x8000 : Half).toNat + (0x8000 : Half).toNat := by decide

/-- Law 2 at the largest result; two orders of the same words; a `w` other than 0; a header; an even first count. -/
theorem test_witness_AccumulatorLaws :
    (ocsum 0x1234 [0xED, 0xCB] ≠ 0 ∧ 1 ≤ 0xFFFF ∧
      0xFFFF % 0xFFFF = ((0x1234 : Half).toNat + (wordsOf [0xED, 0xCB]).sum) % 0xFFFF) ∧
    (wordsOf [1, 2, 3, 4]).Perm (wordsOf [3, 4, 1, 2]) ∧ (1 : Half) ≠ 0 ∧ 12 ≤ dgE20.length ∧
    ([1, 2] : List Byte).length % 2 = 0 := by
  refine ⟨?_, List.Perm.swap _ _ _, ?_, ?_, ?_⟩ <;> decide

/-- A range that ends at the buffer's end, and one that is one byte longer. -/
theorem test_witness_CsumAddSumsARange :
    (let s := { base with arg0 := 0x00010000, arg1 := 96 };
      s.arg0.toNat % 2 ^ 16 + s.arg1.toNat % 2 ^ 16 ≤ s.cfg.bufBytes) ∧
    (let s := { base with arg0 := 95, arg1 := 2 };
      s.cfg.bufBytes < s.arg0.toNat % 2 ^ 16 + s.arg1.toNat % 2 ^ 16) := by decide

/-- The shortest header exactly filling IN_LEN, and a header of 15 words. -/
theorem test_witness_CsumValReportsTheHeaderChecksum :
    (withIn dgE20).HeaderOk .inB ∧ (withOut dgLong).HeaderOk .outB := by decide +kernel

theorem test_witness_CsumFixStoresTheHeaderChecksum :
    (withIn dgE20).HeaderOk .inB ∧ (withIn dgE20).cell .inB 0 ≠ none ∧ (withOut dgLong).HeaderOk .outB ∧
      (withOut dgLong).cell .outB 0 ≠ none := by decide +kernel

/-- V-VAL-12 to V-VAL-15; V-FWD-10 and V-FWD-11. -/
theorem test_witness_FailedChecksReportMalformed :
    ¬ (withIn (dgA.set 0 0x44)).HeaderOk .inB ∧ ¬ (withIn (dgA.take 19)).HeaderOk .inB ∧
    ¬ (withOut (dgA.set 0 0x4f)).HeaderOk .outB ∧ ¬ ({ withIn dgA with inLen := 97 } : State).HeaderOk .inB ∧
    ¬ (withIn (dgE.set 3 0x21)).DatagramOk ∧ ¬ (withIn (dgE.set 3 0x13)).DatagramOk := by decide +kernel

/-- The state CSUM.FIX leaves, and that state once CSUM.VAL has been written to CMD. -/
theorem test_witness_FixedHeaderValidates :
    (withIn dgA).HeaderOk .inB ∧ (∀ a < 4 * (withIn dgA).ihl .inB, a ≠ 10 → a ≠ 11 → (withIn dgA).cell .inB a ≠ none) ∧
    exec (csumFixOf .inB) (withIn dgA) = .next (left .csumFixIn (withIn dgA)) ∧
    (let t := left .csumFixIn (withIn dgA);
      let u := t.issue (encode .csumValIn);
      u.buf .inB = t.buf .inB ∧ u.lenOf .inB = t.lenOf .inB ∧ u.cfg = t.cfg) := by
  refine ⟨?_, ?_, rfl, rfl, rfl, rfl⟩ <;> decide +kernel

/-- A datagram that fills IN_LEN, and one of a header alone. -/
theorem test_witness_HdrFwdWritesTheDecrementedCopy :
    (withIn dgE).DatagramOk ∧ (withIn dgE20).DatagramOk := by decide +kernel

theorem test_witness_ForwardedCopyValidates :
    (withIn dgE).cell .inB 0 ≠ none ∧ exec .hdrFwd (withIn dgE) = .next (left .hdrFwd (withIn dgE)) ∧
      (left .hdrFwd (withIn dgE)).status.err = 0 := by
  refine ⟨?_, rfl, ?_⟩ <;> decide +kernel

/-- V-LPM-2: entry 2 wins over 1 (shorter) and 5 (later); V-LPM-4: no entry matches. -/
theorem test_witness_LpmArgFindsTheLongestPrefix :
    ({ base with arg0 := 0xC0A80714 } : State).BestRoute 0xC0A80714 2 ∧ ∀ i, ¬ base.RouteMatches 0x08080808 i := by
  refine ⟨⟨by decide +kernel, fun j hj => ?_⟩, fun i hi => ?_⟩
  · exact (by decide +kernel : ∀ j < 8, base.RouteMatches 0xC0A80714 j →
      base.routeLength j ≤ base.routeLength 2 ∧ (base.routeLength j = base.routeLength 2 → 2 ≤ j)) j hj.1 hj
  · exact (by decide +kernel : ∀ i < 8, ¬ base.RouteMatches 0x08080808 i) i hi.1 hi

/-- IN_LEN at 20 and at BUF_BYTES, then just outside; the key of V-LPM-13 and its route. -/
theorem test_witness_LpmDstFindsTheLongestPrefix :
    (20 ≤ (withIn dgE20).inLen.toNat ∧ (withIn dgE20).inLen.toNat ≤ 96) ∧
    (20 ≤ ({ withIn dgE with inLen := 96 } : State).inLen.toNat ∧
      ({ withIn dgE with inLen := 96 } : State).inLen.toNat ≤ (withIn dgE).cfg.bufBytes) ∧
    ({ withIn dgE with inLen := 19 } : State).inLen.toNat < 20 ∧
    (withIn dgE).cfg.bufBytes < ({ withIn dgE with inLen := 97 } : State).inLen.toNat ∧
    (withIn dgE).BestRoute 0xC0A80909 1 := by
  refine ⟨by decide +kernel, by decide +kernel, by decide +kernel, by decide +kernel, by decide +kernel, fun j hj => ?_⟩
  exact (by decide +kernel : ∀ j < 8, base.RouteMatches 0xC0A80909 j →
    base.routeLength j ≤ base.routeLength 1 ∧ (base.routeLength j = base.routeLength 1 → 1 ≤ j)) j hj.1 hj

theorem test_witness_ContiguousMaskLengthIsPrefixLength : 0 ≤ 32 ∧ 32 ≤ 32 ∧ 24 < 25 := by decide

/-- One key, datagram E's destination, looked up by lpm dst at each bound of IN_LEN and by lpm arg in a state with
nothing in IN. -/
theorem test_witness_LpmDependsOnlyOnTableAndKey :
    (let s := withIn dgE20;
      let s' := { base with arg0 := 0xC0A80909 };
      s.LooksUp .lpmDst 0xC0A80909 ∧ ({ s with inLen := 96 } : State).LooksUp .lpmDst 0xC0A80909 ∧
        s'.LooksUp .lpmArg 0xC0A80909 ∧ s.cfg.nRt = s'.cfg.nRt ∧ (∀ j < s.cfg.nRt, s.rtEntry j = s'.rtEntry j) ∧
        s.status = s'.status) ∧
    exec .lpmDst (withIn dgE20) = .next (left .lpmDst (withIn dgE20)) ∧
    exec .lpmArg { base with arg0 := 0xC0A80909 } = .next (left .lpmArg { base with arg0 := 0xC0A80909 }) := by
  refine ⟨?_, rfl, rfl⟩
  decide +kernel

/-- The last valid interface with a header alone (no payload byte quoted), and the longest reply. -/
theorem test_witness_IcmpErrWritesTheQuotingReply :
    (Instr.icmpErrTx, (11 : Byte), (0 : Byte)) ∈ icmpErrTable ∧
    (({ withIn dgE20 with arg0 := 0x00000102 } : State).arg0.toNat % 2 ^ 8 < base.cfg.nIf ∧
      (base.ifEntry 2).v = true ∧ (withIn dgE20).DatagramOk) ∧
    ((withIn dgLong).ifEntry 0).v = true ∧ (withIn dgLong).DatagramOk := by decide +kernel

/-- The index just outside the table; the invalid entry 3; a datagram that fails the check. -/
theorem test_witness_IcmpErrErrorsInOrder :
    Instr.icmpErrPort ∈ icmpErrTable.map Prod.fst ∧
    (let s := { base with arg0 := 4 };
      s.cfg.nIf ≤ s.arg0.toNat % 2 ^ 8) ∧
    (let s := { base with arg0 := 3 };
      s.arg0.toNat % 2 ^ 8 < s.cfg.nIf ∧ (s.ifEntry (s.arg0.toNat % 2 ^ 8)).v = false) ∧
    (let s := withIn (dgE.set 3 0x13);
      s.arg0.toNat % 2 ^ 8 < s.cfg.nIf ∧ (s.ifEntry (s.arg0.toNat % 2 ^ 8)).v = true ∧ ¬ s.DatagramOk) := by
  decide +kernel

/-- The shortest reply and the longest. -/
theorem test_witness_ErrorReplyLengthIsBounded :
    base.cfg.legal = true ∧ Instr.icmpErrNet ∈ icmpErrTable.map Prod.fst ∧
    exec .icmpErrNet (withIn dgE20) = .next (left .icmpErrNet (withIn dgE20)) ∧
    (left .icmpErrNet (withIn dgE20)).status.err = 0 ∧ (left .icmpErrNet (withIn dgE20)).outLen = 48 ∧
    (left .icmpErrNet (withIn dgLong)).status.err = 0 ∧ (left .icmpErrNet (withIn dgLong)).outLen = 96 := by
  refine ⟨?_, ?_, rfl, ?_, ?_, ?_, ?_⟩ <;> decide +kernel

theorem test_witness_QuoteShowsTheHeaderBeforeTheDecrement :
    (withIn dgB).DatagramOk ∧ (∀ a < 4 * (withIn dgB).ihl .inB + 5, (withIn dgB).cell .inB a ≠ none) ∧
    min 8 ((withIn dgB).totalLength - 4 * (withIn dgB).ihl .inB) = 5 ∧
    exec .hdrFwd (withIn dgB) = .next (left .hdrFwd (withIn dgB)) ∧
    Instr.icmpErrTx ∈ icmpErrTable.map Prod.fst ∧
    exec .icmpErrTx (left .hdrFwd (withIn dgB)) = .next (left .icmpErrTx (left .hdrFwd (withIn dgB))) ∧
    (left .icmpErrTx (left .hdrFwd (withIn dgB))).status.err = 0 := by
  refine ⟨?_, ?_, ?_, rfl, ?_, rfl, ?_⟩ <;> decide +kernel

/-- The shortest ICMP message, and datagram C. -/
theorem test_witness_IcmpEchoWritesTheReply :
    (let s := withIn dgM;
      s.DatagramOk ∧ s.totalLength - 4 * s.ihl .inB = 4 ∧ Memory.byteAt s.inBuf (s.draws + 3) 9 = 1 ∧
        Memory.byteAt s.inBuf (s.draws + 4) (4 * s.ihl .inB) = 8) ∧
    (let s := withIn dgC;
      s.DatagramOk ∧ 4 ≤ s.totalLength - 4 * s.ihl .inB ∧ Memory.byteAt s.inBuf (s.draws + 3) 9 = 1 ∧
        Memory.byteAt s.inBuf (s.draws + 4) (4 * s.ihl .inB) = 8) := by decide +kernel

/-- An ICMP message of 3 bytes; one of 4 bytes whose type is not 8; protocol 17. -/
theorem test_witness_IcmpEchoErrorsInOrder :
    ((withIn dgM23).DatagramOk ∧ (withIn dgM23).totalLength - 4 * (withIn dgM23).ihl .inB < 4) ∧
    (let s := withIn (dgM.set 20 0x00);
      s.DatagramOk ∧ 4 ≤ s.totalLength - 4 * s.ihl .inB ∧
        Memory.byteAt s.inBuf (s.draws + 4) (4 * s.ihl .inB) ≠ 8) ∧
    (let s := withIn dgA;
      s.DatagramOk ∧ 4 ≤ s.totalLength - 4 * s.ihl .inB ∧ Memory.byteAt s.inBuf (s.draws + 3) 9 ≠ 1) := by
  decide +kernel

/-- Datagram C's echo reply, and the host's set-up for summing its ICMP message. -/
theorem test_witness_RepliesCarryValidChecksums :
    Instr.icmpEcho ∈ [Instr.icmpErrTx, .icmpErrNet, .icmpErrPort, .icmpEcho] ∧ (withIn dgC).cfg.legal = true ∧
    exec .icmpEcho (withIn dgC) = .next (left .icmpEcho (withIn dgC)) ∧
    (left .icmpEcho (withIn dgC)).status.err = 0 ∧
    (let t := left .icmpEcho (withIn dgC);
      let u := { t with acc := 0, arg0 := 20, arg1 := BitVec.ofNat 32 (t.outLen.toNat - 20) };
      u.outBuf = t.outBuf ∧ u.outLen = t.outLen ∧ u.cfg = t.cfg ∧ u.acc = 0 ∧ u.arg0 = 20 ∧ u.arg1 = 13) := by
  refine ⟨?_, ?_, rfl, ?_, ?_⟩ <;> decide +kernel

/-- V-VAL-8: CSUM.VAL reports a mismatch with ERR = 0; and a status with an error and no command pending. -/
theorem test_witness_NoReportedResultStopsTheNextCommand :
    (let s := withIn (dgA.set 11 0x84);
      exec .csumValIn s = .next (left .csumValIn s) ∧ (left .csumValIn s).status = Status.zero) ∧
    ({ Status.zero with err := 5 } : Status).busy = false := by
  refine ⟨⟨rfl, ?_⟩, rfl⟩
  decide +kernel

end Sys2Proof.Machine.Tests
end

section
/-!
PROOFS of the family 10_state.md: the registers at the port, what reset leaves, and that no step changes the parameters.
-/

namespace Sys2Proof.Machine

/-! ### The parameters -/

/-- R7: the bounds of legal parameters. -/
theorem params_legal_iff (p : Config.Params) :
    p.legal = true ↔ p.bufBytes % 4 = 0 ∧ 96 ≤ p.bufBytes ∧ p.bufBytes ≤ 16384 ∧
      1 ≤ p.nRt ∧ p.nRt ≤ 256 ∧ 1 ≤ p.nIf ∧ p.nIf ≤ 32 := by
  simp [Config.Params.legal, and_assoc]

/-- CFG0 is wide enough for every legal BUF_BYTES (R22). -/
theorem toNat_cfg0Word {p : Config.Params} (h : p.legal = true) : (cfg0Word p).toNat = p.bufBytes := by
  obtain ⟨_, _, hbuf, _⟩ := (params_legal_iff p).mp h
  rw [cfg0Word, BitVec.toNat_ofNat]
  omega

/-- CFG1 is wide enough for every legal N_RT and N_IF (R22). -/
theorem toNat_cfg1Word {p : Config.Params} (h : p.legal = true) :
    (cfg1Word p).toNat = p.nIf * 2 ^ 16 + p.nRt := by
  obtain ⟨_, _, _, _, hrt, _, hif⟩ := (params_legal_iff p).mp h
  rw [cfg1Word, BitVec.toNat_ofNat]
  omega

/-- The two halves of CFG1 (R22): N_RT below, N_IF above. -/
theorem cfg1Word_halves {p : Config.Params} (h : p.legal = true) :
    ((cfg1Word p).extractLsb' 0 16).toNat = p.nRt ∧ ((cfg1Word p).extractLsb' 16 16).toNat = p.nIf := by
  obtain ⟨_, _, _, _, hrt, _, hif⟩ := (params_legal_iff p).mp h
  simp only [BitVec.extractLsb'_toNat, toNat_cfg1Word h, Nat.shiftRight_eq_div_pow]
  omega

/-! ### Registers at the port -/

/-- R36: each register stands at its own address, whatever the parameters. -/
theorem placeOf_regAddr (p : Config.Params) (r : Reg) : placeOf p (BitVec.ofNat 16 r.addr).toNat = .reg r := by
  cases r <;> rfl

/-- A host read of a register returns its value and changes no state of the block. -/
theorem memRead_reg (s : State) (r : Reg) :
    s.memRead (BitVec.ofNat 16 r.addr) = { s with lastRead := some (s.readReg r) } := by
  simp only [State.memRead, placeOf_regAddr, State.readPlace]

/-- A host write to a register is the register's own write. -/
theorem memWrite_reg (s : State) (r : Reg) (v : Word) :
    s.memWrite (BitVec.ofNat 16 r.addr) v = s.writeReg r v := by
  simp only [State.memWrite, placeOf_regAddr, State.writePlace]

/-! ### No command changes the parameters -/

theorem csumAdd_cfg (b : Buf) (s : State) : (csumAdd b s).cfg = s.cfg := by
  obtain ⟨_, h⟩ | ⟨_, h⟩ := csumAdd_cases b s <;> rw [h]
  exact State.raise_cfg s .range

theorem csumVal_cfg (b : Buf) (s : State) : (csumVal b s).cfg = s.cfg := by
  obtain ⟨_, _, h, _⟩ | ⟨_, _, _, _, _, h⟩ := csumVal_cases b s <;> rw [h]
  exact State.raise_cfg _ .malformed

theorem csumFix_cfg (b : Buf) (s : State) : (csumFix b s).cfg = s.cfg := by
  obtain ⟨_, _, h, _⟩ | ⟨_, _, _, h⟩ := csumFix_cases b s <;> rw [h]
  · exact State.raise_cfg _ .malformed
  · exact State.writeBytes_cfg s b 10 _

theorem hdrFwd_cfg (s : State) : (hdrFwd s).cfg = s.cfg := by
  obtain ⟨_, _, h, _⟩ | ⟨_, _, _, _, _, _, _, h⟩ := hdrFwd_cases s <;> rw [h]
  exact State.raise_cfg _ .malformed

theorem lpmLookup_cfg (key : Word) (s : State) : (lpmLookup key s).cfg = s.cfg := by
  obtain ⟨_, h⟩ | ⟨_, _, h⟩ := lpmLookup_cases key s <;> rw [h]

theorem lpmDst_cfg (s : State) : (lpmDst s).cfg = s.cfg := by
  obtain ⟨_, h⟩ | ⟨_, _, h⟩ := lpmDst_cases s <;> rw [h]
  · exact State.raise_cfg s .malformed
  · exact lpmLookup_cfg _ _

theorem writeReply_cfg (s : State) (t : Nat) (src dst : Word) (ty co : Byte) (rest : List Byte) :
    (writeReply s t src dst ty co rest).cfg = s.cfg := by
  obtain ⟨_, _, _, _, h⟩ := writeReply_eq s t src dst ty co rest
  rw [h]

theorem icmpErr_cfg (ty co : Byte) (s : State) : (icmpErr ty co s).cfg = s.cfg := by
  obtain ⟨_, h⟩ | ⟨_, _, h⟩ | ⟨_, _, _, _, h, _⟩ | ⟨_, _, _, _, _, _, _, h⟩ := icmpErr_cases ty co s <;> rw [h]
  · exact State.raise_cfg s .range
  · exact State.raise_cfg s .noIf
  · exact State.raise_cfg _ .malformed
  · exact writeReply_cfg _ _ _ _ _ _ _

theorem icmpEcho_cfg (s : State) : (icmpEcho s).cfg = s.cfg := by
  obtain ⟨_, _, h, _⟩ | ⟨_, _, _, h⟩ | ⟨_, _, _, _, _, _, _, _, h⟩ := icmpEcho_cases s <;> rw [h]
  · exact State.raise_cfg _ .malformed
  · exact State.raise_cfg _ .notEcho
  · exact writeReply_cfg _ _ _ _ _ _ _

/-- Every command completes, in a state with the parameters it started from. -/
theorem exec_next_cfg (i : Instr) (s : State) : ∃ t, exec i s = .next t ∧ t.cfg = s.cfg := by
  cases i with
  | csumClr => exact ⟨_, rfl, rfl⟩
  | csumAddIn => exact ⟨_, rfl, csumAdd_cfg .inB s⟩
  | csumAddOut => exact ⟨_, rfl, csumAdd_cfg .outB s⟩
  | csumValIn => exact ⟨_, rfl, csumVal_cfg .inB s⟩
  | csumValOut => exact ⟨_, rfl, csumVal_cfg .outB s⟩
  | csumFixIn => exact ⟨_, rfl, csumFix_cfg .inB s⟩
  | csumFixOut => exact ⟨_, rfl, csumFix_cfg .outB s⟩
  | hdrFwd => exact ⟨_, rfl, hdrFwd_cfg s⟩
  | lpmArg => exact ⟨_, rfl, lpmLookup_cfg s.arg0 s⟩
  | lpmDst => exact ⟨_, rfl, lpmDst_cfg s⟩
  | icmpErrTx => exact ⟨_, rfl, icmpErr_cfg 11 0 s⟩
  | icmpErrNet => exact ⟨_, rfl, icmpErr_cfg 3 0 s⟩
  | icmpErrPort => exact ⟨_, rfl, icmpErr_cfg 3 3 s⟩
  | icmpEcho => exact ⟨_, rfl, icmpEcho_cfg s⟩

/-! ### No turn changes the parameters -/

theorem readPlace_cfg (s : State) (p : Place) : (s.readPlace p).2.cfg = s.cfg := by
  cases p <;> rfl

theorem writeReg_cfg (s : State) (r : Reg) (v : Word) : (s.writeReg r v).cfg = s.cfg := by
  cases r <;> rfl

theorem writePlace_cfg (s : State) (p : Place) (v : Word) : (s.writePlace p v).cfg = s.cfg := by
  cases p with
  | reg r => exact writeReg_cfg s r v
  | ift i f => rfl
  | rt i f => rfl
  | buf b o => exact State.writeBytes_cfg s b o (bytes32 v)
  | unmapped => rfl

theorem perform_cfg (s : State) (x : HostAccess) : (s.perform x).cfg = s.cfg := by
  cases x with
  | read a _ => exact readPlace_cfg s (placeOf s.cfg a.toNat)
  | write a _ v => exact writePlace_cfg s (placeOf s.cfg a.toNat) v

theorem hostAccess_cfg {x : HostAccess} {s t : State} (h : hostAccess x s = .next t) : t.cfg = s.cfg := by
  obtain ⟨_, e⟩ | ⟨_, _, e⟩ | ⟨_, _, _, e⟩ | ⟨_, _, e⟩ := hostAccess_cases x s <;> rw [e] at h <;> cases h
  exact perform_cfg s x

theorem blockTurn_cfg {s t : State} (h : blockTurn s = .next t) : t.cfg = s.cfg := by
  obtain ⟨_, e⟩ | ⟨_, i, _, e⟩ | ⟨_, _, _, e⟩ := blockTurn_cases s <;> rw [e] at h
  · cases h
    rfl
  · obtain ⟨u, hu, hcfg⟩ := exec_next_cfg i s
    rw [hu] at h
    cases h
    exact hcfg
  · cases h
    exact State.raise_cfg s .illegal

/-- R22: no step changes the parameters, a reset turn included. -/
theorem step_cfg {s t : State} (h : step s = .next t) : t.cfg = s.cfg := by
  obtain ⟨_, e⟩ | ⟨rest, _, e⟩ | ⟨x, rest, _, e⟩ | ⟨rest, _, e⟩ := step_cases s <;> rw [e] at h
  · exact blockTurn_cfg h
  · exact (blockTurn_cfg h :)
  · exact (hostAccess_cfg h :)
  · cases h
    rfl

/-- Settles O20, by the register rules of the port and the step lemma for the parameters. -/
theorem parametersNeverChange : Obligations.ParametersNeverChange := by
  refine ⟨fun s hlegal => ⟨?_, ?_, ?_⟩, fun s t => step_cfg⟩
  · exact ⟨cfg0Word s.cfg, memRead_reg s .cfg0, toNat_cfg0Word hlegal⟩
  · exact ⟨cfg1Word s.cfg, memRead_reg s .cfg1, cfg1Word_halves hlegal⟩
  · exact fun v => ⟨memWrite_reg s .cfg0 v, memWrite_reg s .cfg1 v⟩

/-! ### What reset leaves -/

/-- STATUS after reset reads 0x00000000 (R20, R103). -/
theorem statusZero_toWord : Status.zero.toWord = 0 := by decide

/-- Every interface entry after reset is zero, inside the table and past its end (R34; log entry 12). -/
theorem resetWith_ifEntry (p : Config.Params) (i : Nat) : (State.resetWith p).ifEntry i = IfEntry.zero :=
  List.getElem?_getD_replicate_default_eq IfEntry.zero p.nIf i

/-- Every route entry after reset is zero, inside the table and past its end (R34; log entry 12). -/
theorem resetWith_rtEntry (p : Config.Params) (i : Nat) : (State.resetWith p).rtEntry i = RtEntry.zero :=
  List.getElem?_getD_replicate_default_eq RtEntry.zero p.nRt i

/-- Every byte of both buffers after reset is unwritten (R34). -/
theorem resetWith_cell (p : Config.Params) (b : Buf) (a : Nat) : (State.resetWith p).cell b a = none := by
  cases b <;> rfl

/-- Settles O8, the registers by computation, the tables and buffers by their lemmas. -/
theorem resetLeavesEveryRegisterZero : Obligations.ResetLeavesEveryRegisterZero := by
  intro p
  have hift : (State.resetWith p).ift.length = p.nIf := List.length_replicate
  have hrt : (State.resetWith p).rt.length = p.nRt := List.length_replicate
  exact ⟨rfl, statusZero_toWord, rfl, rfl, rfl, rfl, rfl, rfl, rfl, rfl, rfl, rfl, hift, hrt,
    resetWith_ifEntry p, resetWith_rtEntry p, resetWith_cell p⟩

end Sys2Proof.Machine
end

section
/-!
PROOFS of the family 20_memory.md: the address map (R36). One equation of `placeOf` per window, from which the place of
every mapped address and the absence of one at every other address follow.
-/

namespace Sys2Proof.Machine

/-! ### The windows of the address map -/

/-- The interface table's window: the entry is mapped below N_IF. -/
theorem placeOf_iftWindow (p : Config.Params) {a : Nat} (ha : 0x0100 ≤ a ∧ a ≤ 0x01FF) :
    placeOf p a = if (a - 0x0100) / 8 < p.nIf then .ift ((a - 0x0100) / 8) (ifFieldAt (a / 4 % 2)) else .unmapped := by
  rw [placeOf, if_neg (by omega), if_pos ha]

/-- The route table's window: the entry is mapped below N_RT. -/
theorem placeOf_rtWindow (p : Config.Params) {a : Nat} (ha : 0x1000 ≤ a ∧ a ≤ 0x1FFF) :
    placeOf p a = if (a - 0x1000) / 16 < p.nRt then .rt ((a - 0x1000) / 16) (rtFieldAt (a / 4 % 4)) else .unmapped := by
  rw [placeOf, if_neg (by omega), if_neg (by omega), if_pos ha]

/-- A buffer's window: the offset is mapped below BUF_BYTES. -/
theorem placeOf_bufWindow (p : Config.Params) (b : Buf) {a : Nat} (ha : bufBase b ≤ a ∧ a ≤ bufBase b + 0x3FFF) :
    placeOf p a = if a - bufBase b < p.bufBytes then .buf b (a - bufBase b) else .unmapped := by
  cases b with
  | inB =>
    have hin : 0x4000 ≤ a ∧ a ≤ 0x7FFF := ha
    rw [placeOf, if_neg (by omega), if_neg (by omega), if_neg (by omega), if_pos hin]
    rfl
  | outB =>
    have hout : 0x8000 ≤ a ∧ a ≤ 0xBFFF := ha
    rw [placeOf, if_neg (by omega), if_neg (by omega), if_neg (by omega), if_neg (by omega), if_pos hout]
    rfl

/-- Outside the register block and the windows nothing is mapped. -/
theorem placeOf_outsideWindows (p : Config.Params) {a : Nat} (hreg : ¬ a < 0x0030)
    (hift : ¬ (0x0100 ≤ a ∧ a ≤ 0x01FF)) (hrt : ¬ (0x1000 ≤ a ∧ a ≤ 0x1FFF))
    (hbuf : ∀ b, ¬ (bufBase b ≤ a ∧ a ≤ bufBase b + 0x3FFF)) : placeOf p a = .unmapped := by
  have hin : ¬ (0x4000 ≤ a ∧ a ≤ 0x7FFF) := hbuf .inB
  have hout : ¬ (0x8000 ≤ a ∧ a ≤ 0xBFFF) := hbuf .outB
  rw [placeOf, if_neg hreg, if_neg hift, if_neg hrt, if_neg hin, if_neg hout]

/-! ### The place of every mapped address -/

/-- Each register stands at its own address, whatever the parameters. -/
theorem placeOf_addr (p : Config.Params) (r : Reg) : placeOf p r.addr = .reg r := by
  cases r <;> rfl

/-- The words of the interface entries below N_IF; legal parameters keep them inside their window. -/
theorem placeOf_ift {p : Config.Params} (hlegal : p.legal = true) {i : Nat} (hi : i < p.nIf) (f : IfField) :
    placeOf p (0x0100 + 8 * i + f.offset) = .ift i f := by
  obtain ⟨_, _, _, _, _, _, hnIf⟩ := (params_legal_iff p).mp hlegal
  have hoff : f.offset ≤ 4 := by cases f <;> decide
  have hentry : (0x0100 + 8 * i + f.offset - 0x0100) / 8 = i := by omega
  have hword : (0x0100 + 8 * i + f.offset) / 4 % 2 = f.offset / 4 := by omega
  have hfield : ifFieldAt (f.offset / 4) = f := by cases f <;> rfl
  rw [placeOf_iftWindow p (by omega), hentry, if_pos hi, hword, hfield]

/-- The words of the route entries below N_RT; legal parameters keep them inside their window. -/
theorem placeOf_rt {p : Config.Params} (hlegal : p.legal = true) {i : Nat} (hi : i < p.nRt) (f : RtField) :
    placeOf p (0x1000 + 16 * i + f.offset) = .rt i f := by
  obtain ⟨_, _, _, _, hnRt, _, _⟩ := (params_legal_iff p).mp hlegal
  have hoff : f.offset ≤ 12 := by cases f <;> decide
  have hentry : (0x1000 + 16 * i + f.offset - 0x1000) / 16 = i := by omega
  have hword : (0x1000 + 16 * i + f.offset) / 4 % 4 = f.offset / 4 := by omega
  have hfield : rtFieldAt (f.offset / 4) = f := by cases f <;> rfl
  rw [placeOf_rtWindow p (by omega), hentry, if_pos hi, hword, hfield]

/-- The offsets of a buffer below BUF_BYTES; legal parameters keep them inside its window. -/
theorem placeOf_buf {p : Config.Params} (hlegal : p.legal = true) (b : Buf) {o : Nat} (ho : o < p.bufBytes) :
    placeOf p (bufBase b + o) = .buf b o := by
  obtain ⟨_, _, hbytes, _⟩ := (params_legal_iff p).mp hlegal
  rw [placeOf_bufWindow p b (by omega), Nat.add_sub_cancel_left, if_pos ho]

/-! ### The aligned addresses of each window are those of its places -/

/-- Every word address of the register block is a register's. -/
theorem exists_reg_addr {a : Nat} (hlt : a < 0x0030) (halign : a % 4 = 0) : ∃ r : Reg, a = r.addr := by
  have hword : ∀ k < 12, ∃ r, regAt k = some r ∧ 4 * k = r.addr := by decide
  obtain ⟨r, _, haddr⟩ := hword (a / 4) (by omega)
  exact ⟨r, by omega⟩

/-- The word selector of an interface entry counts words of 4 bytes. -/
theorem offset_ifFieldAt {k : Nat} (hk : k < 2) : (ifFieldAt k).offset = 4 * k :=
  (by decide : ∀ k < 2, (ifFieldAt k).offset = 4 * k) k hk

/-- The word selector of a route entry counts words of 4 bytes. -/
theorem offset_rtFieldAt {k : Nat} (hk : k < 4) : (rtFieldAt k).offset = 4 * k :=
  (by decide : ∀ k < 4, (rtFieldAt k).offset = 4 * k) k hk

/-- An aligned address of the interface table's window is the address of the entry and word it selects. -/
theorem eq_iftAddr {a : Nat} (hle : 0x0100 ≤ a) (halign : a % 4 = 0) :
    a = 0x0100 + 8 * ((a - 0x0100) / 8) + (ifFieldAt (a / 4 % 2)).offset := by
  rw [offset_ifFieldAt (Nat.mod_lt _ (by decide))]
  omega

/-- An aligned address of the route table's window is the address of the entry and word it selects. -/
theorem eq_rtAddr {a : Nat} (hle : 0x1000 ≤ a) (halign : a % 4 = 0) :
    a = 0x1000 + 16 * ((a - 0x1000) / 16) + (rtFieldAt (a / 4 % 4)).offset := by
  rw [offset_rtFieldAt (Nat.mod_lt _ (by decide))]
  omega

/-- An aligned address that is no place's is unmapped: in each window the place it would select is past the end. -/
theorem placeOf_eq_unmapped {p : Config.Params} {a : Nat} (halign : a % 4 = 0) (hreg : ∀ r : Reg, a ≠ r.addr)
    (hift : ∀ i f, i < p.nIf → a ≠ 0x0100 + 8 * i + IfField.offset f)
    (hrt : ∀ i f, i < p.nRt → a ≠ 0x1000 + 16 * i + RtField.offset f)
    (hbuf : ∀ b o, o < p.bufBytes → a ≠ bufBase b + o) : placeOf p a = .unmapped := by
  have hblock : ¬ a < 0x0030 := fun hlt => (exists_reg_addr hlt halign).elim hreg
  by_cases hI : 0x0100 ≤ a ∧ a ≤ 0x01FF
  · rw [placeOf_iftWindow p hI, if_neg fun hi => hift _ _ hi (eq_iftAddr hI.1 halign)]
  by_cases hR : 0x1000 ≤ a ∧ a ≤ 0x1FFF
  · rw [placeOf_rtWindow p hR, if_neg fun hi => hrt _ _ hi (eq_rtAddr hR.1 halign)]
  by_cases hB : ∃ b, bufBase b ≤ a ∧ a ≤ bufBase b + 0x3FFF
  · obtain ⟨b, hb⟩ := hB
    rw [placeOf_bufWindow p b hb, if_neg fun ho => hbuf b _ ho (Nat.add_sub_cancel' hb.1).symm]
  · exact placeOf_outsideWindows p hblock hI hR fun b hb => hB ⟨b, hb⟩

/-! ### Unmapped addresses at the host port -/

/-- A host read of an unmapped address returns 0 and changes no state of the block. -/
theorem memRead_unmapped {s : State} {a : PortAddr} (h : placeOf s.cfg a.toNat = .unmapped) :
    s.memRead a = { s with lastRead := some 0 } := by
  simp only [State.memRead, h, State.readPlace]

/-- A host write to an unmapped address is ignored. -/
theorem memWrite_unmapped {s : State} {a : PortAddr} (h : placeOf s.cfg a.toNat = .unmapped) (v : Word) :
    s.memWrite a v = s := by
  simp only [State.memWrite, h, State.writePlace]

/-- Settles O16, by the place of each mapped address and the windows' equations for all others. -/
theorem addressMapSelectsEveryPlace : Obligations.AddressMapSelectsEveryPlace := by
  intro p hlegal
  refine ⟨placeOf_addr p, fun i f hi => placeOf_ift hlegal hi f, fun i f hi => placeOf_rt hlegal hi f,
    fun b o ho => placeOf_buf hlegal b ho, fun a => placeOf_eq_unmapped, fun s v => ⟨rfl, rfl⟩, ?_⟩
  rintro s a v rfl h
  exact ⟨memRead_unmapped h, memWrite_unmapped h v⟩

end Sys2Proof.Machine
end

section
/-!
PROOFS of the family 40_checksum.md: the accumulator (R61 to R64) and CSUM.CLR (R67). The one fact behind every law is
`isOcSum_ocsum`: the machine's sum is the one's-complement sum of its words. `IsOcSum.eq_toNat` says that this fixes it.
-/

namespace Sys2Proof.Machine

/-! ### One addition -/

/-- R61 without the carry: the sum when it fits 16 bits, else the sum less 0xFFFF. -/
theorem toNat_ocadd (a w : Half) :
    (ocadd a w).toNat = if a.toNat + w.toNat ≤ 0xFFFF then a.toNat + w.toNat else a.toNat + w.toNat - 0xFFFF := by
  have := a.isLt
  have := w.isLt
  simp only [ocadd, BitVec.toNat_ofNat]
  split <;> omega

/-- Settles O25, by the two branches of `toNat_ocadd`. -/
theorem ocaddCarriesEndAround : Obligations.OcaddCarriesEndAround := by
  intro a w
  rw [toNat_ocadd]
  exact ⟨fun hfits => if_pos hfits, fun hcarry => if_neg (by omega)⟩

/-- R63, law 3: 0 is neutral. -/
@[simp] theorem zero_ocadd (w : Half) : ocadd 0 w = w := by
  have hw := w.isLt
  have hzero : (0 : Half).toNat = 0 := rfl
  apply BitVec.eq_of_toNat_eq
  rw [toNat_ocadd, hzero, if_pos (by omega), Nat.zero_add]

/-- R63, law 3: 0xFFFF, the other zero, is neutral on every word but 0. -/
theorem ones_ocadd {w : Half} (h : w ≠ 0) : ocadd 0xFFFF w = w := by
  have hpos : w.toNat ≠ 0 := fun hw => h (BitVec.eq_of_toNat_eq hw)
  have hones : (0xFFFF : Half).toNat = 0xFFFF := rfl
  apply BitVec.eq_of_toNat_eq
  rw [toNat_ocadd, hones, if_neg (by omega), Nat.add_sub_cancel_left]

/-- R63, law 4: a value and its complement sum to 0xFFFF. -/
@[simp] theorem ocadd_not_self (s : Half) : ocadd s (~~~s) = 0xFFFF := by
  have hs := s.isLt
  have hnot : s.toNat + (~~~s).toNat = 0xFFFF := by
    rw [BitVec.toNat_not]
    omega
  apply BitVec.eq_of_toNat_eq
  rw [toNat_ocadd, hnot]
  rfl

/-! ### The words of a byte sequence -/

@[simp] theorem length_wordsOf (bs : List Byte) : (wordsOf bs).length = (bs.length + 1) / 2 := by
  induction bs using wordsOf.induct with
  | case1 => rfl
  | case2 hi => simp [wordsOf]
  | case3 hi lo rest ih =>
    simp only [wordsOf, List.length_cons, ih]
    omega

/-- Writing the two bytes of word `k` writes that word. -/
theorem wordsOf_set_pair (bs : List Byte) (k : Nat) (hi lo : Byte) (h : 2 * k + 1 < bs.length) :
    wordsOf ((bs.set (2 * k) hi).set (2 * k + 1) lo) = (wordsOf bs).set k (hi.toNat * 256 + lo.toNat) := by
  induction bs using wordsOf.induct generalizing k with
  | case1 => simp at h
  | case2 b => simp at h
  | case3 b0 b1 rest ih =>
    cases k with
    | zero => rfl
    | succ k =>
      have hk : 2 * k + 1 < rest.length := by
        simp only [List.length_cons] at h
        omega
      exact congrArg (_ :: ·) (ih k hk)

/-- The two bytes of a 16-bit number are its word (R42). -/
theorem toNat_halves (c : Half) : (c.extractLsb' 8 8).toNat * 256 + (c.extractLsb' 0 8).toNat = c.toNat := by
  have hc := c.isLt
  simp only [BitVec.extractLsb'_toNat, Nat.shiftRight_eq_div_pow]
  omega

/-- Storing a checksum writes word 5 of the header. -/
theorem wordsOf_storeChecksum {h : List Byte} (hlen : 12 ≤ h.length) (c : Half) :
    wordsOf (storeChecksum h c) = (wordsOf h).set 5 c.toNat := by
  rw [← toNat_halves c]
  exact wordsOf_set_pair h 5 _ _ hlen

/-- R64: zeroing the checksum field zeroes word 5 of the header. -/
theorem wordsOf_zeroChecksum {h : List Byte} (hlen : 12 ≤ h.length) : wordsOf (zeroChecksum h) = headerWords h :=
  wordsOf_set_pair h 5 0 0 hlen

/-- A stored checksum adds its value to the words of the header with the field zeroed. -/
theorem sum_wordsOf_storeChecksum {h : List Byte} (hlen : 12 ≤ h.length) (c : Half) :
    (wordsOf (storeChecksum h c)).sum = (headerWords h).sum + c.toNat := by
  have hfield : 5 < (wordsOf h).length := by
    rw [length_wordsOf]
    omega
  rw [wordsOf_storeChecksum hlen, List.sum_set, List.sum_set, if_pos hfield, if_pos hfield]
  omega

/-! ### The sum of a byte sequence -/

/-- `IsOcSum` in numbers alone: 0 together with the total, and congruent to it modulo 0xFFFF. -/
theorem isOcSum_iff {r acc : Half} {ws : List Nat} :
    IsOcSum r acc ws ↔ (r.toNat = 0 ↔ acc.toNat + ws.sum = 0) ∧ r.toNat % 0xFFFF = (acc.toNat + ws.sum) % 0xFFFF := by
  have hzero (v : Half) : v = 0 ↔ v.toNat = 0 := BitVec.toNat_inj.symm
  rw [IsOcSum, hzero r, hzero acc, Nat.add_eq_zero_iff]

/-- One addition is a sum of one word. -/
theorem isOcSum_ocadd (acc w : Half) : IsOcSum (ocadd acc w) acc [w.toNat] := by
  rw [isOcSum_iff, toNat_ocadd, List.sum_singleton]
  split <;> omega

/-- Summing on from `ocadd acc w` is summing `w` and the rest from `acc`. -/
theorem IsOcSum.cons {r acc w : Half} {ws : List Nat} (h : IsOcSum r (ocadd acc w) ws) :
    IsOcSum r acc (w.toNat :: ws) := by
  have hadd := isOcSum_iff.mp (isOcSum_ocadd acc w)
  rw [isOcSum_iff] at h ⊢
  simp only [List.sum_cons, List.sum_nil] at hadd ⊢
  omega

/-- Adding `w` to a finished sum is summing `w` last. -/
theorem IsOcSum.concat {r acc : Half} {ws : List Nat} (h : IsOcSum r acc ws) (w : Half) :
    IsOcSum (ocadd r w) acc (ws ++ [w.toNat]) := by
  have hadd := isOcSum_iff.mp (isOcSum_ocadd r w)
  rw [isOcSum_iff] at h ⊢
  simp only [List.sum_append, List.sum_cons, List.sum_nil] at hadd ⊢
  omega

/-- R63, laws 1 and 2: the machine's sum is the one's-complement sum of the words. -/
theorem isOcSum_ocsum (acc : Half) (bs : List Byte) : IsOcSum (ocsum acc bs) acc (wordsOf bs) := by
  induction acc, bs using ocsum.induct with
  | case1 acc => simp [IsOcSum, ocsum, wordsOf]
  | case2 acc hi => simpa [ocsum, wordsOf] using isOcSum_ocadd acc (word16 hi 0)
  | case3 acc hi lo rest ih => simpa [ocsum, wordsOf] using ih.cons

/-- R63, law 2: a 16-bit number that is 0 exactly when the total is, and congruent to it modulo 0xFFFF, is the
one's-complement sum: the total alone fixes it. -/
theorem IsOcSum.eq_toNat {r acc : Half} {ws : List Nat} (h : IsOcSum r acc ws) {n : Nat} (hle : n ≤ 0xFFFF)
    (hzero : n = 0 ↔ acc.toNat + ws.sum = 0) (hmod : n % 0xFFFF = (acc.toNat + ws.sum) % 0xFFFF) : n = r.toNat := by
  obtain ⟨hrzero, hrmod⟩ := isOcSum_iff.mp h
  have hr := r.isLt
  omega

/-- R63, law 2: only the total of the words counts, so neither their order nor their number does. -/
theorem IsOcSum.unique {r r' acc : Half} {ws ws' : List Nat} (h : IsOcSum r acc ws) (h' : IsOcSum r' acc ws')
    (hsum : ws.sum = ws'.sum) : r = r' := by
  obtain ⟨hzero, hmod⟩ := isOcSum_iff.mp h
  rw [hsum] at hzero hmod
  exact BitVec.eq_of_toNat_eq (h'.eq_toNat (Nat.le_of_lt_succ r.isLt) hzero hmod)

/-- R63, law 1. -/
theorem ocsum_eq_zero_iff (acc : Half) (bs : List Byte) : ocsum acc bs = 0 ↔ acc = 0 ∧ ∀ w ∈ wordsOf bs, w = 0 := by
  rw [(isOcSum_ocsum acc bs).1, List.sum_eq_zero_iff]

/-- What folding the carries keeps of a number, and that it ends below 0x10000 when the fuel is at least the number. -/
theorem foldCarries_spec {fuel x : Nat} (h : x ≤ fuel) :
    foldCarries fuel x ≤ 0xFFFF ∧ (foldCarries fuel x = 0 ↔ x = 0) ∧ foldCarries fuel x % 0xFFFF = x % 0xFFFF := by
  induction fuel generalizing x with
  | zero =>
    obtain rfl : x = 0 := Nat.le_zero.mp h
    exact ⟨by decide, Iff.rfl, rfl⟩
  | succ fuel ih =>
    unfold foldCarries
    split
    next hfits => exact ⟨hfits, Iff.rfl, rfl⟩
    next hcarry =>
      obtain ⟨hle, hzero, hmod⟩ := ih (x := x % 0x10000 + x / 0x10000) (by omega)
      exact ⟨hle, by omega, by omega⟩

/-- R63, law 2: folding the wide sum once at the end gives what adding with end-around carry at every word gives. -/
theorem toNat_ocsum_eq_foldCarries (acc : Half) (bs : List Byte) :
    (ocsum acc bs).toNat = foldCarries (acc.toNat + (wordsOf bs).sum) (acc.toNat + (wordsOf bs).sum) := by
  obtain ⟨hle, hzero, hmod⟩ := foldCarries_spec (Nat.le_refl (acc.toNat + (wordsOf bs).sum))
  exact ((isOcSum_ocsum acc bs).eq_toNat hle hzero hmod).symm

/-- R63, law 5: an even number of bytes ends at a word boundary, where a sum can be split. -/
theorem ocsum_append (acc : Half) (b1 b2 : List Byte) (h : b1.length % 2 = 0) :
    ocsum (ocsum acc b1) b2 = ocsum acc (b1 ++ b2) := by
  induction acc, b1 using ocsum.induct with
  | case1 acc => rfl
  | case2 acc hi => simp at h
  | case3 acc hi lo rest ih =>
    exact ih (by simpa [Nat.add_assoc] using h)

/-! ### The checksum of a header -/

/-- R64: the sum of a header with a checksum stored is its `hsum` with that checksum added last. -/
theorem ocsum_storeChecksum {h : List Byte} (hlen : 12 ≤ h.length) (c : Half) :
    ocsum 0 (storeChecksum h c) = ocadd (hsum h) c := by
  have hsumWords : IsOcSum (hsum h) 0 (headerWords h) := wordsOf_zeroChecksum hlen ▸ isOcSum_ocsum 0 (zeroChecksum h)
  refine (isOcSum_ocsum 0 (storeChecksum h c)).unique (hsumWords.concat c) ?_
  rw [sum_wordsOf_storeChecksum hlen, List.sum_append, List.sum_singleton]

/-- R63, law 4: a header that holds the complement of its sum sums to 0xFFFF. -/
theorem ocsum_storeChecksum_not_hsum {h : List Byte} (hlen : 12 ≤ h.length) :
    ocsum 0 (storeChecksum h (~~~hsum h)) = 0xFFFF := by
  rw [ocsum_storeChecksum hlen, ocadd_not_self]

/-! ### The five laws -/

/-- Settles O26: laws 1 and 2 from `isOcSum_ocsum` and its uniqueness, law 3 from `toNat_ocadd`, law 4 from the sum of a
header with its checksum stored, law 5 by induction over the byte pairs, with `[1]` before `[1]` where it fails. -/
theorem accumulatorLaws : Obligations.AccumulatorLaws := by
  refine ⟨ocsum_eq_zero_iff, fun acc bs hne => ⟨(isOcSum_ocsum acc bs).2, ?unique⟩, ?order,
    toNat_ocsum_eq_foldCarries, fun w => ⟨zero_ocadd w, ones_ocadd⟩, by decide, ocadd_not_self,
    fun h => ocsum_storeChecksum_not_hsum, ocsum_append, ?odd⟩
  case unique =>
    intro r hpos hle hmod
    have htotal := (isOcSum_iff.mp (isOcSum_ocsum acc bs)).1
    have hocsum : (ocsum acc bs).toNat ≠ 0 := fun h => hne (BitVec.eq_of_toNat_eq h)
    exact (isOcSum_ocsum acc bs).eq_toNat hle (by omega) hmod
  case order =>
    exact fun acc bs bs' hperm => (isOcSum_ocsum acc bs).unique (isOcSum_ocsum acc bs') hperm.sum_eq
  case odd => exact ⟨0, [1], [1], rfl, by decide⟩

/-! ### CSUM.CLR -/

/-- Settles O27, by the decoder on the one word and the command's meaning. -/
theorem csumClrClearsTheAccumulator : Obligations.CsumClrClearsTheAccumulator :=
  ⟨by decide, fun _ => rfl⟩

end Sys2Proof.Machine
end

section
/-!
PROOFS of the family 41_route_lookup.md: the route lookup (R74 to R78). The loop invariant is `State.LookupUpTo`: after
the first `n` entries the best so far is the best match among them. `lpmBest_eq_some_iff` and `lpmBest_eq_none_iff` say
what the whole loop finds, for any key, and `lpmLookup_of_bestRoute` and `lpmLookup_of_no_match` what a lookup reports.
-/

namespace Sys2Proof.Machine

/-! ### Matching entries -/

/-- R74: the machine's match test is the match condition. -/
theorem matchesKey_iff (e : RtEntry) (k : Word) :
    e.matchesKey k = true ↔ e.v = true ∧ k &&& e.mask = e.pfx &&& e.mask := by
  rw [RtEntry.matchesKey, Bool.and_eq_true, beq_iff_eq]

/-- R74: the matching entries are the entries of RT that pass the machine's match test. -/
theorem routeMatches_iff (s : State) (k : Word) (i : Nat) :
    s.RouteMatches k i ↔ i < s.cfg.nRt ∧ (s.rtEntry i).matchesKey k = true := by
  rw [matchesKey_iff]

/-- R76: the tie-break leaves one winner. -/
theorem bestRoute_unique {s : State} {k : Word} {i j : Nat} (hi : s.BestRoute k i) (hj : s.BestRoute k j) : i = j := by
  obtain ⟨hmatchi, hbesti⟩ := hi
  obtain ⟨hmatchj, hbestj⟩ := hj
  obtain ⟨hji, htiei⟩ := hbesti j hmatchj
  obtain ⟨hij, htiej⟩ := hbestj i hmatchi
  have hlen : s.routeLength i = s.routeLength j := Nat.le_antisymm hij hji
  exact Nat.le_antisymm (htiei hlen.symm) (htiej hlen)

/-! ### The loop -/

/-- R75, R76 among the first `n` entries: entry `i` matches, and every other match is shorter, or as long and later. -/
def State.BestBelow (s : State) (k : Word) (n i : Nat) : Prop :=
  (i < n ∧ (s.rtEntry i).matchesKey k = true) ∧
    ∀ j < n, (s.rtEntry j).matchesKey k = true →
      s.routeLength j ≤ s.routeLength i ∧ (s.routeLength j = s.routeLength i → i ≤ j)

/-- The invariant of R78's loop after `n` turns: no match so far, or the best match so far with its length. -/
def State.LookupUpTo (s : State) (k : Word) (n : Nat) : Option (Nat × Nat) → Prop
  | none => ∀ j < n, ¬ (s.rtEntry j).matchesKey k = true
  | some (i, len) => len = s.routeLength i ∧ s.BestBelow k n i

/-- Over the whole table the best match is the route that wins. -/
theorem bestBelow_nRt_iff (s : State) (k : Word) (i : Nat) : s.BestBelow k s.cfg.nRt i ↔ s.BestRoute k i := by
  simp only [State.BestBelow, State.BestRoute, routeMatches_iff, and_imp]

/-- An entry that does not match leaves the best so far. -/
theorem lpmVisit_of_not_match {s : State} {k : Word} {n : Nat} (h : ¬ (s.rtEntry n).matchesKey k = true)
    (best : Option (Nat × Nat)) : lpmVisit s k best n = best :=
  if_neg h

/-- The first entry that matches becomes the best so far. -/
theorem lpmVisit_none {s : State} {k : Word} {n : Nat} (h : (s.rtEntry n).matchesKey k = true) :
    lpmVisit s k none n = some (n, s.routeLength n) :=
  if_pos h

/-- An entry that matches replaces the best so far only when it is strictly longer. -/
theorem lpmVisit_some {s : State} {k : Word} {n : Nat} (h : (s.rtEntry n).matchesKey k = true) (i len : Nat) :
    lpmVisit s k (some (i, len)) n = if len < s.routeLength n then some (n, s.routeLength n) else some (i, len) :=
  if_pos h

/-- The first match is the best among the entries up to it. -/
theorem bestBelow_of_first {s : State} {k : Word} {n : Nat} (hmatch : (s.rtEntry n).matchesKey k = true)
    (hnone : ∀ j < n, ¬ (s.rtEntry j).matchesKey k = true) : s.BestBelow k (n + 1) n :=
  ⟨⟨n.lt_succ_self, hmatch⟩, Nat.forall_lt_succ_right.mpr
    ⟨fun j hj hmatchj => absurd hmatchj (hnone j hj), fun _ => ⟨le_rfl, fun _ => le_rfl⟩⟩⟩

/-- A strictly longer match is the best among the entries up to it. -/
theorem State.BestBelow.replace {s : State} {k : Word} {n i : Nat} (h : s.BestBelow k n i)
    (hmatch : (s.rtEntry n).matchesKey k = true) (hlonger : s.routeLength i < s.routeLength n) :
    s.BestBelow k (n + 1) n := by
  obtain ⟨_, hbest⟩ := h
  refine ⟨⟨n.lt_succ_self, hmatch⟩, Nat.forall_lt_succ_right.mpr
    ⟨fun j hj hmatchj => ?_, fun _ => ⟨le_rfl, fun _ => le_rfl⟩⟩⟩
  have hshorter : s.routeLength j < s.routeLength n := (hbest j hj hmatchj).1.trans_lt hlonger
  exact ⟨hshorter.le, fun htie => absurd htie hshorter.ne⟩

/-- The best so far stays the best past an entry that is no longer, or does not match: its index is the lower. -/
theorem State.BestBelow.keep {s : State} {k : Word} {n i : Nat} (h : s.BestBelow k n i)
    (hle : (s.rtEntry n).matchesKey k = true → s.routeLength n ≤ s.routeLength i) : s.BestBelow k (n + 1) i := by
  obtain ⟨⟨hi, hmatchi⟩, hbest⟩ := h
  exact ⟨⟨hi.trans n.lt_succ_self, hmatchi⟩, Nat.forall_lt_succ_right.mpr
    ⟨hbest, fun hmatch => ⟨hle hmatch, fun _ => hi.le⟩⟩⟩

/-- One turn of the loop keeps the invariant. -/
theorem lookupUpTo_lpmVisit {s : State} {k : Word} {n : Nat} {best : Option (Nat × Nat)}
    (h : s.LookupUpTo k n best) : s.LookupUpTo k (n + 1) (lpmVisit s k best n) := by
  by_cases hmatch : (s.rtEntry n).matchesKey k = true
  · match best, h with
    | none, hnone =>
      rw [lpmVisit_none hmatch]
      exact ⟨rfl, bestBelow_of_first hmatch hnone⟩
    | some (i, _), ⟨rfl, hbest⟩ =>
      rw [lpmVisit_some hmatch]
      split
      next hlonger => exact ⟨rfl, hbest.replace hmatch hlonger⟩
      next hnot => exact ⟨rfl, hbest.keep fun _ => Nat.le_of_not_lt hnot⟩
  · rw [lpmVisit_of_not_match hmatch]
    match best, h with
    | none, hnone => exact Nat.forall_lt_succ_right.mpr ⟨hnone, hmatch⟩
    | some (_, _), ⟨hlen, hbest⟩ => exact ⟨hlen, hbest.keep fun hm => absurd hm hmatch⟩

/-- The invariant holds after any number of turns. -/
theorem lookupUpTo_foldl (s : State) (k : Word) (n : Nat) :
    s.LookupUpTo k n ((List.range n).foldl (lpmVisit s k) none) := by
  induction n with
  | zero => exact fun j hj => absurd hj j.not_lt_zero
  | succ n ih =>
    rw [List.range_succ, List.foldl_append]
    exact lookupUpTo_lpmVisit ih

/-- What the whole loop answers: no entry matches, or the one that wins. -/
theorem lpmBest_cases (s : State) (k : Word) :
    (lpmBest s k = none ∧ ∀ i, ¬ s.RouteMatches k i) ∨ ∃ i, lpmBest s k = some i ∧ s.BestRoute k i := by
  have hinv := lookupUpTo_foldl s k s.cfg.nRt
  unfold lpmBest
  match (List.range s.cfg.nRt).foldl (lpmVisit s k) none, hinv with
  | none, hnone =>
    refine .inl ⟨rfl, fun i hi => ?_⟩
    obtain ⟨hlt, hmatch⟩ := (routeMatches_iff s k i).mp hi
    exact hnone i hlt hmatch
  | some (i, _), ⟨_, hbest⟩ => exact .inr ⟨i, rfl, (bestBelow_nRt_iff s k i).mp hbest⟩

/-- R76: the loop finds the entry that wins. -/
theorem lpmBest_eq_some_iff (s : State) (k : Word) (i : Nat) : lpmBest s k = some i ↔ s.BestRoute k i := by
  obtain ⟨hbest, hnone⟩ | ⟨j, hbest, hj⟩ := lpmBest_cases s k <;> rw [hbest]
  · exact ⟨nofun, fun hi => absurd hi.1 (hnone i)⟩
  · exact ⟨fun h => Option.some.inj h ▸ hj, fun hi => congrArg some (bestRoute_unique hj hi)⟩

/-- R78: the loop finds nothing exactly where no entry matches. -/
theorem lpmBest_eq_none_iff (s : State) (k : Word) : lpmBest s k = none ↔ ∀ i, ¬ s.RouteMatches k i := by
  obtain ⟨hbest, hnone⟩ | ⟨j, hbest, hj⟩ := lpmBest_cases s k <;> rw [hbest]
  · exact ⟨fun _ => hnone, fun _ => rfl⟩
  · exact ⟨nofun, fun hnone => absurd hj.1 (hnone j)⟩

/-- R76: where some entry matches, one of them wins. -/
theorem exists_bestRoute {s : State} {k : Word} (h : ∃ i, s.RouteMatches k i) : ∃ i, s.BestRoute k i := by
  obtain ⟨_, hnone⟩ | ⟨i, _, hi⟩ := lpmBest_cases s k
  · exact absurd h (not_exists.mpr hnone)
  · exact ⟨i, hi⟩

/-! ### The lookup -/

/-- R77, R78: what a lookup reports of the route that wins. -/
theorem lpmLookup_of_bestRoute {s : State} {k : Word} {i : Nat} (h : s.BestRoute k i) :
    lpmLookup k s = { s with
      res0 := if (s.rtEntry i).gateway = 0 then k else (s.rtEntry i).gateway
      res1 := BitVec.ofNat 32 (2 ^ 31 + i * 2 ^ 16 + (s.rtEntry i).egress.toNat)
      res2 := (s.rtEntry i).mask
      status := { s.ended 0 with lpmHit := true } } := by
  have hbest := (lpmBest_eq_some_iff s k i).mpr h
  obtain ⟨hnone, _⟩ | ⟨j, hj, hlookup⟩ := lpmLookup_cases k s
  · exact absurd (hnone.symm.trans hbest) nofun
  · obtain rfl : j = i := Option.some.inj (hj.symm.trans hbest)
    exact hlookup

/-- R78: what a lookup reports where no entry matches. -/
theorem lpmLookup_of_no_match {s : State} {k : Word} (h : ∀ i, ¬ s.RouteMatches k i) :
    lpmLookup k s = { s with res0 := 0, res1 := 0, res2 := 0, status := s.ended 0 } := by
  have hbest := (lpmBest_eq_none_iff s k).mpr h
  obtain ⟨_, hlookup⟩ | ⟨j, hj, _⟩ := lpmLookup_cases k s
  · exact hlookup
  · exact absurd (hbest.symm.trans hj) nofun

/-- LPM arg is the lookup of ARG0. -/
theorem exec_lpmArg (s : State) : exec .lpmArg s = .next (lpmLookup s.arg0 s) := rfl

/-- Settles O35: the hit and the miss of a lookup with key ARG0, and the winner the loop finds. -/
theorem lpmArgFindsTheLongestPrefix : Obligations.LpmArgFindsTheLongestPrefix := by
  intro s
  rw [exec_lpmArg]
  exact ⟨fun i hbest => congrArg _ (lpmLookup_of_bestRoute hbest),
    fun hnone => congrArg _ (lpmLookup_of_no_match hnone), exists_bestRoute⟩

end Sys2Proof.Machine
end

section
/-!
PROOFS of the family 60_exceptions.md: how a command ends (R91, R92). `State.Ends` is the relation between the state a
command starts from and the one it leaves; each command's case lemma puts it there once (`exec_next_ends`), and
`State.Ends.of_err_ne_zero` reads off what an error has written.
-/

namespace Sys2Proof.Machine

/-! ### The two ways a command ends -/

/-- How a command with a meaning ends (R91, R92): with completion code 0, whatever else it wrote, or by raising an error
other than E_ILLEGAL in a state that differs from its start in the count of reads alone. -/
inductive State.Ends (s : State) : State → Prop where
  | done {t : State} (herr : t.status.err = 0) : s.Ends t
  | raised (d : Nat) (e : ErrCode) (hne : e ≠ .illegal) : s.Ends (({ s with draws := d } : State).raise e)

/-- R91: the codes from 6 on are reserved. -/
theorem ErrCode.toNat_code_le (e : ErrCode) : e.code.toNat ≤ 5 := by
  cases e <;> decide

/-- R91: code 1 is E_ILLEGAL's alone. -/
theorem ErrCode.code_ne_one {e : ErrCode} (hne : e ≠ .illegal) : e.code ≠ 1 := by
  cases e with
  | illegal => exact absurd rfl hne
  | range | malformed | notEcho | noIf => decide

/-- R92: a command that ends with a code other than 0 has written that code and nothing else. -/
theorem State.Ends.of_err_ne_zero {s t : State} (h : s.Ends t) (herr : t.status.err ≠ 0) :
    t = { s with status := s.ended t.status.err, draws := t.draws } ∧ t.status.err.toNat ≤ 5 ∧ t.status.err ≠ 1 := by
  cases h with
  | done hzero => exact absurd hzero herr
  | raised d e hne => exact ⟨rfl, e.toNat_code_le, ErrCode.code_ne_one hne⟩

/-! ### How each command ends -/

theorem csumAdd_ends (b : Buf) (s : State) : s.Ends (csumAdd b s) := by
  obtain ⟨_, h⟩ | ⟨_, h⟩ := csumAdd_cases b s <;> rw [h]
  · exact .raised s.draws .range nofun
  · exact .done rfl

theorem csumVal_ends (b : Buf) (s : State) : s.Ends (csumVal b s) := by
  obtain ⟨_, d, h, _⟩ | ⟨_, _, _, _, _, h⟩ := csumVal_cases b s <;> rw [h]
  · exact .raised d .malformed nofun
  · exact .done rfl

theorem csumFix_ends (b : Buf) (s : State) : s.Ends (csumFix b s) := by
  obtain ⟨_, d, h, _⟩ | ⟨_, _, _, h⟩ := csumFix_cases b s <;> rw [h]
  · exact .raised d .malformed nofun
  · exact .done rfl

theorem hdrFwd_ends (s : State) : s.Ends (hdrFwd s) := by
  obtain ⟨_, d, h, _⟩ | ⟨_, _, _, _, _, _, _, h⟩ := hdrFwd_cases s <;> rw [h]
  · exact .raised d .malformed nofun
  · exact .done rfl

/-- R78: a lookup completes with code 0, on a hit and on a miss. -/
theorem lpmLookup_err (key : Word) (s : State) : (lpmLookup key s).status.err = 0 := by
  obtain ⟨_, h⟩ | ⟨_, _, h⟩ := lpmLookup_cases key s <;> rw [h]

theorem lpmDst_ends (s : State) : s.Ends (lpmDst s) := by
  obtain ⟨_, h⟩ | ⟨_, _, h⟩ := lpmDst_cases s <;> rw [h]
  · exact .raised s.draws .malformed nofun
  · exact .done (lpmLookup_err _ _)

/-- R86, R89: a command that writes a reply completes with code 0. -/
theorem writeReply_err (s : State) (t : Nat) (src dst : Word) (ty co : Byte) (rest : List Byte) :
    (writeReply s t src dst ty co rest).status.err = 0 := by
  obtain ⟨_, _, _, _, h⟩ := writeReply_eq s t src dst ty co rest
  rw [h]

theorem icmpErr_ends (ty co : Byte) (s : State) : s.Ends (icmpErr ty co s) := by
  obtain ⟨_, h⟩ | ⟨_, _, h⟩ | ⟨_, _, _, d, h, _⟩ | ⟨_, _, _, _, _, _, _, h⟩ := icmpErr_cases ty co s <;> rw [h]
  · exact .raised s.draws .range nofun
  · exact .raised s.draws .noIf nofun
  · exact .raised d .malformed nofun
  · exact .done (writeReply_err _ _ _ _ _ _ _)

theorem icmpEcho_ends (s : State) : s.Ends (icmpEcho s) := by
  obtain ⟨_, d, h, _⟩ | ⟨_, _, _, h⟩ | ⟨_, _, _, _, _, _, _, _, h⟩ := icmpEcho_cases s <;> rw [h]
  · exact .raised d .malformed nofun
  · exact .raised (s.draws + 5) .notEcho nofun
  · exact .done (writeReply_err _ _ _ _ _ _ _)

/-- Every command completes, in one of the two ways. -/
theorem exec_next_ends (i : Instr) (s : State) : ∃ t, exec i s = .next t ∧ s.Ends t := by
  cases i with
  | csumClr => exact ⟨_, rfl, .done rfl⟩
  | csumAddIn => exact ⟨_, rfl, csumAdd_ends .inB s⟩
  | csumAddOut => exact ⟨_, rfl, csumAdd_ends .outB s⟩
  | csumValIn => exact ⟨_, rfl, csumVal_ends .inB s⟩
  | csumValOut => exact ⟨_, rfl, csumVal_ends .outB s⟩
  | csumFixIn => exact ⟨_, rfl, csumFix_ends .inB s⟩
  | csumFixOut => exact ⟨_, rfl, csumFix_ends .outB s⟩
  | hdrFwd => exact ⟨_, rfl, hdrFwd_ends s⟩
  | lpmArg => exact ⟨_, rfl, .done (lpmLookup_err s.arg0 s)⟩
  | lpmDst => exact ⟨_, rfl, lpmDst_ends s⟩
  | icmpErrTx => exact ⟨_, rfl, icmpErr_ends 11 0 s⟩
  | icmpErrNet => exact ⟨_, rfl, icmpErr_ends 3 0 s⟩
  | icmpErrPort => exact ⟨_, rfl, icmpErr_ends 3 3 s⟩
  | icmpEcho => exact ⟨_, rfl, icmpEcho_ends s⟩

/-! ### A pending illegal word -/

/-- R55, R92: the Block's turn completes a pending illegal word with code 1 and writes nothing else. -/
theorem blockTurn_of_decode_error {s : State} {e : DecodeError} (hbusy : s.status.busy = true)
    (hword : decode s.cmd = .error e) : blockTurn s = .next { s with status := s.ended 1 } := by
  obtain ⟨hidle, _⟩ | ⟨_, i, hok, _⟩ | ⟨_, _, _, h⟩ := blockTurn_cases s
  · exact absurd (hidle.symm.trans hbusy) nofun
  · exact absurd (hok.symm.trans hword) nofun
  · exact h

/-- Settles O12, by the two ways a command ends and the Block's turn on an illegal word. -/
theorem errorWritesOnlyStatus : Obligations.ErrorWritesOnlyStatus := by
  refine ⟨fun i s t hexec herr => ?_, fun s e => blockTurn_of_decode_error⟩
  obtain ⟨u, hu, hends⟩ := exec_next_ends i s
  obtain rfl : u = t := Host.Outcome.next.inj (hu.symm.trans hexec)
  exact hends.of_err_ne_zero herr

end Sys2Proof.Machine
end

section
/-!
PROOFS of the family 30_encoding.md, words and texts: decoding and encoding (R50 to R55), assembler text (R57).
`decode_eq_ok_iff` says that the legal words are the commands' words; from it follows which words are illegal.
-/

namespace Sys2Proof.Machine

/-! ### Fields and words -/

/-- R50: a word is its three fields, no bit left over. -/
theorem joinWord_splitWord (w : Word) : joinWord (splitWord w) = w := by
  have hw := w.isLt
  apply BitVec.eq_of_toNat_eq
  simp only [joinWord, splitWord, BitVec.toNat_ofNat, BitVec.extractLsb'_toNat, Nat.shiftRight_eq_div_pow]
  omega

/-- R50, R52: the fields of a command's word are the command's. -/
theorem splitWord_encode (i : Instr) : splitWord (encode i) = fieldsOf i := by
  cases i <;> decide

/-- R52: a command's reserved bits are 0, and its opcode and function field select it. -/
theorem decodeOpF_fieldsOf (i : Instr) :
    (fieldsOf i).rsv = 0 ∧ decodeOpF (fieldsOf i).op.toNat (fieldsOf i).f.toNat = .ok i := by
  cases i <;> exact ⟨rfl, rfl⟩

/-- R52, R53: the opcode and function field that select a command are that command's. -/
theorem fieldsOf_of_decodeOpF {op f : Nat} {i : Instr} (h : decodeOpF op f = .ok i) :
    op = (fieldsOf i).op.toNat ∧ f = (fieldsOf i).f.toNat := by
  unfold decodeOpF at h
  split at h <;> cases h <;> exact ⟨rfl, rfl⟩

/-- R54: a command's word decodes to it. -/
theorem decode_encode (i : Instr) : decode (encode i) = .ok i := by
  obtain ⟨hrsv, hopf⟩ := decodeOpF_fieldsOf i
  simp only [decode, splitWord_encode, if_pos hrsv, hopf]

/-- R50: a word that decodes has the fields of its command, so it is that command's word. -/
theorem eq_encode_of_decode {w : Word} {i : Instr} (h : decode w = .ok i) : w = encode i := by
  by_cases hrsv : (splitWord w).rsv = 0
  · simp only [decode, if_pos hrsv] at h
    obtain ⟨hop, hf⟩ := fieldsOf_of_decodeOpF h
    have hfields : splitWord w = fieldsOf i := by
      rw [CmdFields.mk.injEq]
      exact ⟨BitVec.eq_of_toNat_eq hop, BitVec.eq_of_toNat_eq hf, hrsv.trans (decodeOpF_fieldsOf i).1.symm⟩
    rw [encode, ← hfields, joinWord_splitWord]
  · simp only [decode, if_neg hrsv] at h
    cases h

/-- R54: the legal words are the commands' words. -/
theorem decode_eq_ok_iff {w : Word} {i : Instr} : decode w = .ok i ↔ w = encode i :=
  ⟨eq_encode_of_decode, fun h => h ▸ decode_encode i⟩

/-- Settles O1, by the fields of a word, the decoder's table read in both directions. -/
theorem decodeEncodeAgree : Obligations.DecodeEncodeAgree :=
  fun i => ⟨decode_encode i, fun _ => eq_encode_of_decode⟩

/-- Settles O2: each word listed is the word of its command. -/
theorem wordsWrittenOutDecode : Obligations.WordsWrittenOutDecode := by
  unfold Obligations.WordsWrittenOutDecode
  decide

/-! ### Illegal words -/

/-- The fields of a word as numbers (R50). -/
theorem toNat_splitWord (w : Word) :
    (splitWord w).op.toNat = w.toNat % 256 ∧ (splitWord w).f.toNat = w.toNat / 256 % 4 ∧
      ((splitWord w).rsv = 0 ↔ w.toNat / 1024 = 0) := by
  have hw := w.isLt
  have hzero : (0 : BitVec 22).toNat = 0 := rfl
  simp only [splitWord, ← BitVec.toNat_inj, BitVec.extractLsb'_toNat, Nat.shiftRight_eq_div_pow, hzero]
  exact ⟨by omega, trivial, by omega⟩

/-- R55: a reserved opcode is illegal whatever the function field. -/
theorem decodeOpF_of_unassigned {op : Nat} (h : op ∉ [0x01, 0x02, 0x03, 0x04, 0x05, 0x10, 0x20, 0x21]) (f : Nat) :
    decodeOpF op f = .error .unassignedOp := by
  unfold decodeOpF
  split
  case h_23 => rfl
  all_goals exact absurd (by decide) h

/-- R52, R55: for each assigned opcode, the function fields that the table does not list. -/
theorem decodeOpF_of_assigned {op : Nat} (h : op ∈ [0x01, 0x02, 0x03, 0x04, 0x05, 0x10, 0x20, 0x21]) {f : Nat}
    (hf : f < 4) :
    (decodeOpF op f).isOk = false ↔
      (op ∈ [0x02, 0x03, 0x04, 0x10] ∧ f ∈ [2, 3]) ∨ (op ∈ [0x01, 0x05, 0x21] ∧ f ≠ 0) ∨ (op = 0x20 ∧ f = 3) := by
  revert f
  revert op
  decide

/-- An outcome of the decoder that is no command is an error. -/
theorem exists_error_iff (r : Except DecodeError Instr) : (∃ e, r = .error e) ↔ r.isOk = false := by
  cases r <;> simp [Except.isOk, Except.toBool]

/-- R55: which words are illegal, field by field. -/
theorem decode_error_iff (w : Word) :
    (∃ e, decode w = .error e) ↔
      (w.toNat % 256 ∉ [0x01, 0x02, 0x03, 0x04, 0x05, 0x10, 0x20, 0x21] ∨
        w.toNat / 1024 ≠ 0 ∨
        (w.toNat % 256 ∈ [0x02, 0x03, 0x04, 0x10] ∧ w.toNat / 256 % 4 ∈ [2, 3]) ∨
        (w.toNat % 256 ∈ [0x01, 0x05, 0x21] ∧ w.toNat / 256 % 4 ≠ 0) ∨
        (w.toNat % 256 = 0x20 ∧ w.toNat / 256 % 4 = 3)) := by
  obtain ⟨hop, hf, hrsv⟩ := toNat_splitWord w
  by_cases hzero : w.toNat / 1024 = 0
  · rw [decode, if_pos (hrsv.mpr hzero), hop, hf]
    by_cases hassigned : w.toNat % 256 ∈ [0x01, 0x02, 0x03, 0x04, 0x05, 0x10, 0x20, 0x21]
    · rw [exists_error_iff, decodeOpF_of_assigned hassigned (Nat.mod_lt _ (by decide))]
      simp only [hassigned, hzero, not_true_eq_false, ne_eq, false_or]
    · exact iff_of_true ⟨_, decodeOpF_of_unassigned hassigned _⟩ (.inl hassigned)
  · rw [decode, if_neg (mt hrsv.mp hzero)]
    exact iff_of_true ⟨_, rfl⟩ (.inr (.inl hzero))

/-! ### Assembler text -/

/-- R54: the table lists every command. -/
theorem mem_all (i : Instr) : i ∈ Instr.all := by
  cases i <;> decide

/-- R57: the fourteen texts are distinct. -/
theorem asmText_injective {i j : Instr} (h : asmText i = asmText j) : i = j := by
  revert i j
  have hall : ∀ i ∈ Instr.all, ∀ j ∈ Instr.all, asmText i = asmText j → i = j := by decide
  exact fun {i j} => hall i (mem_all i) j (mem_all j)

/-- The search for a command's text finds that command. -/
theorem find?_asmText (i : Instr) : (Instr.all.find? fun j => asmText j == asmText i) = some i := by
  cases h : Instr.all.find? fun j => asmText j == asmText i with
  | none => exact absurd (beq_self_eq_true _) (List.find?_eq_none.mp h i (mem_all i))
  | some j => rw [asmText_injective (beq_iff_eq.mp (List.find?_some h :))]

/-- Settles O4: the search for a text finds the one command that has it. -/
theorem assemblingATextGivesItsWord : Obligations.AssemblingATextGivesItsWord := by
  refine ⟨fun i => ?_, fun i j => asmText_injective⟩
  rw [assemble, find?_asmText, Option.map_some]

end Sys2Proof.Machine
end

section
/-!
PROOFS about every command: `Effect` lists the shapes of a state that a command can leave, with the places it wrote, and
`exec_effect` puts each command there once. From it follow what no command writes (R26), the sizes that every command
keeps (R28, R29, R31) and the count of reads.
-/

namespace Sys2Proof.Machine

/-! ### Commands by operand -/

theorem exec_csumAddOf (b : Buf) (s : State) : exec (csumAddOf b) s = .next (csumAdd b s) := by
  cases b <;> rfl

theorem exec_csumValOf (b : Buf) (s : State) : exec (csumValOf b) s = .next (csumVal b s) := by
  cases b <;> rfl

theorem exec_csumFixOf (b : Buf) (s : State) : exec (csumFixOf b) s = .next (csumFix b s) := by
  cases b <;> rfl

theorem exec_hdrFwd (s : State) : exec .hdrFwd s = .next (hdrFwd s) := rfl

theorem exec_lpmDst (s : State) : exec .lpmDst s = .next (lpmDst s) := rfl

theorem exec_icmpEcho (s : State) : exec .icmpEcho s = .next (icmpEcho s) := rfl

/-- R53: the error replies run one meaning, at the type and code of their selector. -/
theorem exec_icmpErr {p : Instr × Byte × Byte} (hp : p ∈ icmpErrTable) (s : State) :
    exec p.1 s = .next (icmpErr p.2.1 p.2.2 s) := by
  simp only [icmpErrTable, List.mem_cons, List.not_mem_nil, or_false] at hp
  obtain rfl | rfl | rfl := hp <;> rfl

/-! ### Lengths of what is written to OUT -/

/-- A number that fits its width is itself as a word. -/
theorem toNat_ofNat_of_lt {w n : Nat} (h : n < 2 ^ w) : (BitVec.ofNat w n).toNat = n := by
  rw [BitVec.toNat_ofNat, Nat.mod_eq_of_lt h]

theorem ihl_le (s : State) (b : Buf) : s.ihl b ≤ 15 :=
  Nat.le_of_lt_succ (Nat.mod_lt _ (by decide))

@[simp] theorem length_storeChecksum (h : List Byte) (c : Half) : (storeChecksum h c).length = h.length := by
  simp [storeChecksum]

@[simp] theorem length_forwardedCopy (dgram : List Byte) (ihl : Nat) (t : Byte) :
    (forwardedCopy dgram ihl t).2.length = dgram.length := by
  simp [forwardedCopy]

@[simp] theorem length_replyBytes (t ipc : Half) (src dst : Word) (ty co : Byte) (ic : Half) (rest : List Byte) :
    (replyBytes t ipc src dst ty co ic rest).length = 24 + rest.length := by
  rw [replyBytes, List.length_append]
  rfl

/-! ### What a command leaves -/

/-- The shapes of a state that a command leaves: what it wrote is named, all else stands as it was. -/
inductive Effect (s : State) : Instr → State → Prop where
  /-- An error: STATUS alone, after some reads. -/
  | raised (i : Instr) {d : Nat} (hd : s.draws ≤ d) (e : ErrCode) (hne : e ≠ .illegal) :
      Effect s i (({ s with draws := d } : State).raise e)
  /-- CSUM.CLR. -/
  | cleared : Effect s .csumClr { s with acc := 0, status := s.ended 0 }
  /-- CSUM.ADD. -/
  | summed (b : Buf) {d : Nat} (hd : s.draws ≤ d) (acc : Half) (res0 : Word) :
      Effect s (csumAddOf b) { s with draws := d, acc := acc, res0 := res0, status := s.ended 0 }
  /-- CSUM.VAL. -/
  | validated (b : Buf) {d : Nat} (hd : s.draws ≤ d) (acc : Half) (res0 res1 : Word) (ok : Bool) :
      Effect s (csumValOf b)
        { s with draws := d, acc := acc, res0 := res0, res1 := res1, status := { s.ended 0 with csumOk := ok } }
  /-- CSUM.FIX, on a buffer long enough for a header. -/
  | fixed (b : Buf) {d : Nat} (hd : s.draws ≤ d) (hlen : 20 ≤ s.cfg.bufBytes) (acc : Half) (res0 : Word) (c : Half) :
      Effect s (csumFixOf b)
        { s.writeBytes b 10 (bytes16 c) with draws := d, acc := acc, res0 := res0, status := s.ended 0 }
  /-- HDR.FWD, and the replies of ICMP.ERR and ICMP.ECHO, which set no flag: OUT from offset 0 up to OUT_LEN. -/
  | copied (i : Instr) (hi : i ∈ [.hdrFwd, .icmpErrTx, .icmpErrNet, .icmpErrPort, .icmpEcho])
      {d : Nat} (hd : s.draws ≤ d) (bs : List Byte) (len : Half) (hlen : bs.length = len.toNat)
      (hfits : s.cfg.legal = true → len.toNat ≤ s.cfg.bufBytes) (res0 res1 : Word)
      (exp : Bool) (hexp : exp ≠ s.status.ttlExp → i = .hdrFwd) :
      Effect s i
        { s with
          draws := d, outBuf := Memory.setBytes s.outBuf 0 bs, outLen := len, res0 := res0, res1 := res1
          status := { s.ended 0 with ttlExp := exp } }
  /-- LPM, on a hit and on a miss. -/
  | lookedUp (i : Instr) (hi : i ∈ [.lpmArg, .lpmDst]) {d : Nat} (hd : s.draws ≤ d) (res0 res1 res2 : Word)
      (hit : Bool) :
      Effect s i
        { s with
          draws := d, res0 := res0, res1 := res1, res2 := res2, status := { s.ended 0 with lpmHit := hit } }

theorem csumAdd_effect (b : Buf) (s : State) : Effect s (csumAddOf b) (csumAdd b s) := by
  obtain ⟨_, h⟩ | ⟨_, h⟩ := csumAdd_cases b s <;> rw [h]
  · exact .raised _ le_rfl .range nofun
  · exact .summed b (Nat.le_add_right _ _) _ _

theorem csumVal_effect (b : Buf) (s : State) : Effect s (csumValOf b) (csumVal b s) := by
  obtain ⟨_, d, h, hd⟩ | ⟨_, _, _, _, _, h⟩ := csumVal_cases b s <;> rw [h]
  · exact .raised _ hd .malformed nofun
  · exact .validated b (by omega) _ _ _ _

theorem csumFix_effect (b : Buf) (s : State) : Effect s (csumFixOf b) (csumFix b s) := by
  obtain ⟨_, d, h, hd⟩ | ⟨⟨hle, hmin, _⟩, _, _, h⟩ := csumFix_cases b s <;> rw [h]
  · exact .raised _ hd .malformed nofun
  · exact .fixed b (by omega) (hmin.trans hle) _ _ _

/-- R66: a datagram that passes the check fits its buffer, and its header fits it. -/
theorem State.DatagramOk.bounds {s : State} (h : s.DatagramOk) :
    20 ≤ 4 * s.ihl .inB ∧ 4 * s.ihl .inB ≤ 60 ∧ 4 * s.ihl .inB ≤ s.totalLength ∧ s.totalLength ≤ s.cfg.bufBytes ∧
      s.totalLength < 2 ^ 16 := by
  obtain ⟨⟨hcap, _, hmin, _⟩, hhdr, hlen⟩ := h
  have hihl := ihl_le s .inB
  have hinLen := s.inLen.isLt
  rw [State.lenOf_inB] at hcap
  omega

theorem hdrFwd_effect (s : State) : Effect s .hdrFwd (hdrFwd s) := by
  obtain ⟨_, d, h, hd⟩ | ⟨hok, dgram, t, r, rfl, _, rfl, h⟩ := hdrFwd_cases s <;> rw [h]
  · exact .raised _ hd .malformed nofun
  · obtain ⟨_, _, _, hcap, hlt⟩ := hok.bounds
    have htoNat := toNat_ofNat_of_lt hlt
    refine .copied _ (by decide) (by omega) _ _ ?_ (fun _ => htoNat.trans_le hcap) _ _ _ fun _ => rfl
    rw [length_forwardedCopy, Memory.length_bytes, htoNat]

/-- A reply of `t` bytes is written to OUT up to its new OUT_LEN, and sets no flag (R86, R89). -/
theorem writeReply_effect {i : Instr} (hi : i ∈ [.hdrFwd, .icmpErrTx, .icmpErrNet, .icmpErrPort, .icmpEcho])
    {s : State} {d : Nat} (hd : s.draws ≤ d) {t : Nat} {rest : List Byte} (hlen : 24 + rest.length = t)
    (ht : t < 2 ^ 16) (hfits : s.cfg.legal = true → t ≤ s.cfg.bufBytes) (src dst : Word) (ty co : Byte) :
    Effect s i (writeReply { s with draws := d } t src dst ty co rest) := by
  obtain ⟨_, _, _, _, h⟩ := writeReply_eq { s with draws := d } t src dst ty co rest
  rw [h]
  have htoNat := toNat_ofNat_of_lt ht
  exact .copied i hi hd _ _ (by rw [length_replyBytes, htoNat, hlen]) (by rwa [htoNat]) _ _ _ fun h => absurd rfl h

/-- R85: a reply of ICMP.ERR fits in OUT. -/
theorem icmpErr_effect {p : Instr × Byte × Byte} (hp : p ∈ icmpErrTable) (s : State) :
    Effect s p.1 (icmpErr p.2.1 p.2.2 s) := by
  have hi : p.1 ∈ [.hdrFwd, .icmpErrTx, .icmpErrNet, .icmpErrPort, .icmpEcho] := by
    revert p
    decide
  obtain ⟨_, h⟩ | ⟨_, _, h⟩ | ⟨_, _, _, d, h, hd⟩ | ⟨_, _, hok, n, q, hn, hq, h⟩ := icmpErr_cases p.2.1 p.2.2 s <;>
    rw [h]
  · exact .raised _ le_rfl .range nofun
  · exact .raised _ le_rfl .noIf nofun
  · exact .raised _ hd .malformed nofun
  · obtain ⟨hmin, hmax, _⟩ := hok.bounds
    have hrest : (28 + n + q) ≤ 96 := by omega
    refine writeReply_effect hi (by omega) ?_ (by omega) (fun hlegal => ?_) _ _ _ _
    · simp
      omega
    · obtain ⟨_, hbuf, _⟩ := (params_legal_iff s.cfg).mp hlegal
      omega

theorem icmpEcho_effect (s : State) : Effect s .icmpEcho (icmpEcho s) := by
  obtain ⟨_, d, h, hd⟩ | ⟨_, _, _, h⟩ | ⟨hok, hm, _, _, n, m, rfl, rfl, h⟩ := icmpEcho_cases s <;> rw [h]
  · exact .raised _ hd .malformed nofun
  · exact .raised _ (Nat.le_add_right _ _) .notEcho nofun
  · obtain ⟨hmin, _, hhdr, hcap, hlt⟩ := hok.bounds
    refine writeReply_effect (by decide) (by omega) ?_ (by omega) (fun _ => by omega) _ _ _ _
    rw [Memory.length_bytes]
    omega

theorem lpmLookup_effect {i : Instr} (hi : i ∈ [.lpmArg, .lpmDst]) (key : Word) {s : State} {d : Nat}
    (hd : s.draws ≤ d) : Effect s i (lpmLookup key { s with draws := d }) := by
  obtain ⟨_, h⟩ | ⟨j, _, h⟩ := lpmLookup_cases key { s with draws := d } <;> rw [h]
  · exact .lookedUp i hi hd _ _ _ _
  · exact .lookedUp i hi hd _ _ _ _

theorem lpmDst_effect (s : State) : Effect s .lpmDst (lpmDst s) := by
  obtain ⟨_, h⟩ | ⟨_, _, h⟩ := lpmDst_cases s <;> rw [h]
  · exact .raised _ le_rfl .malformed nofun
  · exact lpmLookup_effect (by decide) _ (Nat.le_add_right _ _)

/-- Every command completes, in one of the shapes. -/
theorem exec_next_effect (i : Instr) (s : State) : ∃ t, exec i s = .next t ∧ Effect s i t := by
  cases i with
  | csumClr => exact ⟨_, rfl, .cleared⟩
  | csumAddIn => exact ⟨_, rfl, csumAdd_effect .inB s⟩
  | csumAddOut => exact ⟨_, rfl, csumAdd_effect .outB s⟩
  | csumValIn => exact ⟨_, rfl, csumVal_effect .inB s⟩
  | csumValOut => exact ⟨_, rfl, csumVal_effect .outB s⟩
  | csumFixIn => exact ⟨_, rfl, csumFix_effect .inB s⟩
  | csumFixOut => exact ⟨_, rfl, csumFix_effect .outB s⟩
  | hdrFwd => exact ⟨_, rfl, hdrFwd_effect s⟩
  | lpmArg => exact ⟨_, rfl, lpmLookup_effect (by decide) s.arg0 le_rfl⟩
  | lpmDst => exact ⟨_, rfl, lpmDst_effect s⟩
  | icmpErrTx => exact ⟨_, rfl, icmpErr_effect (p := (.icmpErrTx, 11, 0)) (by decide) s⟩
  | icmpErrNet => exact ⟨_, rfl, icmpErr_effect (p := (.icmpErrNet, 3, 0)) (by decide) s⟩
  | icmpErrPort => exact ⟨_, rfl, icmpErr_effect (p := (.icmpErrPort, 3, 3)) (by decide) s⟩
  | icmpEcho => exact ⟨_, rfl, icmpEcho_effect s⟩

/-- What `exec` answers, as one of the shapes. -/
theorem effect_of_exec {i : Instr} {s t : State} (h : exec i s = .next t) : Effect s i t := by
  obtain ⟨u, hu, heffect⟩ := exec_next_effect i s
  obtain rfl : u = t := Host.Outcome.next.inj (hu.symm.trans h)
  exact heffect

/-! ### What no command writes -/

@[simp] theorem cell_inB (s : State) (a : Nat) : s.cell .inB a = Memory.get? s.inBuf a := rfl
@[simp] theorem cell_outB (s : State) (a : Nat) : s.cell .outB a = Memory.get? s.outBuf a := rfl

/-- R31: a write to a buffer is read back from its own range, and every other byte of both buffers stands. -/
theorem cell_writeBytes (s : State) (b : Buf) (a : Nat) (bs : List Byte) (b' : Buf) (k : Nat) :
    (s.writeBytes b a bs).cell b' k = if b' = b ∧ a ≤ k ∧ k < a + bs.length then bs[k - a]? else s.cell b' k := by
  cases b <;> cases b' <;> simp [Memory.get?_setBytes]

/-- R26: what stands through every command. -/
theorem Effect.frame {i : Instr} {s t : State} (h : Effect s i t) :
    t.cmd = s.cmd ∧ t.arg0 = s.arg0 ∧ t.arg1 = s.arg1 ∧ t.inLen = s.inLen ∧ t.cfg = s.cfg ∧ t.ift = s.ift ∧
      t.rt = s.rt ∧ t.agenda = s.agenda ∧ t.lastRead = s.lastRead := by
  cases h with
  | fixed b => cases b <;> exact ⟨rfl, rfl, rfl, rfl, rfl, rfl, rfl, rfl, rfl⟩
  | _ => exact ⟨rfl, rfl, rfl, rfl, rfl, rfl, rfl, rfl, rfl⟩

/-- R24, R25, R27: which commands alone write each result register. -/
theorem Effect.registers {i : Instr} {s t : State} (h : Effect s i t) :
    (t.acc ≠ s.acc → i ∈ [.csumClr, .csumAddIn, .csumAddOut, .csumValIn, .csumValOut, .csumFixIn, .csumFixOut]) ∧
    (t.res0 ≠ s.res0 → i ≠ .csumClr) ∧
    (t.res1 ≠ s.res1 → i ∈ [.csumValIn, .csumValOut, .hdrFwd, .lpmArg, .lpmDst, .icmpErrTx, .icmpErrNet,
      .icmpErrPort, .icmpEcho]) ∧
    (t.res2 ≠ s.res2 → i ∈ [.lpmArg, .lpmDst]) ∧
    (t.outLen ≠ s.outLen → i ∈ [.hdrFwd, .icmpErrTx, .icmpErrNet, .icmpErrPort, .icmpEcho]) := by
  cases h with
  | raised | cleared => simp
  | summed b | validated b | fixed b => cases b <;> simp [csumAddOf, csumValOf, csumFixOf]
  | copied _ hi =>
    simp only [List.mem_cons, List.not_mem_nil, or_false] at hi
    obtain rfl | rfl | rfl | rfl | rfl := hi <;> simp
  | lookedUp _ hi =>
    simp only [List.mem_cons, List.not_mem_nil, or_false] at hi
    obtain rfl | rfl := hi <;> simp

/-- R20: which commands alone write each flag. -/
theorem Effect.flags {i : Instr} {s t : State} (h : Effect s i t) :
    (t.status.csumOk ≠ s.status.csumOk → i ∈ [.csumValIn, .csumValOut]) ∧
    (t.status.ttlExp ≠ s.status.ttlExp → i = .hdrFwd) ∧
    (t.status.lpmHit ≠ s.status.lpmHit → i ∈ [.lpmArg, .lpmDst]) := by
  cases h with
  | raised | cleared | summed | fixed => simp
  | validated b => cases b <;> simp [csumValOf]
  | copied _ _ _ _ _ _ _ _ _ _ hexp => simpa using hexp
  | lookedUp _ hi => exact ⟨fun h => absurd rfl h, fun h => absurd rfl h, fun _ => hi⟩

/-- R71: CSUM.FIX in alone writes IN, and only the checksum field. -/
theorem Effect.inCells {i : Instr} {s t : State} (h : Effect s i t) {a : Nat} (hne : t.cell .inB a ≠ s.cell .inB a) :
    i = .csumFixIn ∧ (a = 10 ∨ a = 11) := by
  cases h with
  | fixed b _ _ _ _ c =>
    have hcell := cell_writeBytes s b 10 (bytes16 c) .inB a
    split at hcell
    next hin =>
      obtain ⟨rfl, hle, hlt⟩ := hin
      exact ⟨rfl, by simp [bytes16] at hlt; omega⟩
    next => exact absurd hcell hne
  | _ => exact absurd rfl hne

/-- R71, R72, R86, R89: the commands that write OUT, and where. -/
theorem Effect.outCells {i : Instr} {s t : State} (h : Effect s i t) {a : Nat} (hne : t.cell .outB a ≠ s.cell .outB a) :
    (i = .csumFixOut ∧ (a = 10 ∨ a = 11)) ∨
      (i ∈ [.hdrFwd, .icmpErrTx, .icmpErrNet, .icmpErrPort, .icmpEcho] ∧ a < t.outLen.toNat) := by
  cases h with
  | fixed b _ _ _ _ c =>
    have hcell := cell_writeBytes s b 10 (bytes16 c) .outB a
    split at hcell
    next hin =>
      obtain ⟨rfl, hle, hlt⟩ := hin
      exact .inl ⟨rfl, by simp [bytes16] at hlt; omega⟩
    next => exact absurd hcell hne
  | copied i hi _ bs len hlen =>
    refine .inr ⟨hi, Nat.lt_of_not_le fun (hle : len.toNat ≤ a) => hne ?_⟩
    rw [cell_outB, Memory.get?_setBytes]
    exact if_neg (by omega)
  | _ => exact absurd rfl hne

/-- Settles O13, by the shapes a command can leave: its frame, its registers, its flags, its buffer bytes. -/
theorem commandsWriteOnlyTheirResults : Obligations.CommandsWriteOnlyTheirResults := by
  intro i s t hexec
  have h := effect_of_exec hexec
  obtain ⟨hcmd, harg0, harg1, hinLen, hcfg, hift, hrt, hagenda, hlast⟩ := h.frame
  obtain ⟨hacc, hres0, hres1, hres2, houtLen⟩ := h.registers
  obtain ⟨hcsum, httl, hlpm⟩ := h.flags
  exact ⟨hcmd, harg0, harg1, hinLen, hcfg, hift, hrt, hagenda, hlast, hacc, hres0, hres1, hres2, houtLen, hcsum, httl,
    hlpm, fun _ => h.inCells, fun _ => h.outCells⟩

/-! ### What every command keeps -/

/-- R31: bytes written inside the buffer keep the sizes and the canonical form. -/
theorem State.Sized.writeBytes {s : State} (h : s.Sized) (b : Buf) {a : Nat} {bs : List Byte}
    (hfits : a + bs.length ≤ s.cfg.bufBytes) : (s.writeBytes b a bs).Sized := by
  obtain ⟨hlegal, hift, hrt, hwfIn, hbelowIn, hwfOut, hbelowOut⟩ := h
  cases b with
  | inB =>
    exact ⟨hlegal, hift, hrt, Memory.wf_setBytes bs _ a hwfIn, Memory.below_setBytes bs _ a hfits hbelowIn, hwfOut,
      hbelowOut⟩
  | outB =>
    exact ⟨hlegal, hift, hrt, hwfIn, hbelowIn, Memory.wf_setBytes bs _ a hwfOut,
      Memory.below_setBytes bs _ a hfits hbelowOut⟩

/-- R28, R29, R31: every command keeps the sizes and the canonical form. -/
theorem Effect.sized {i : Instr} {s t : State} (h : Effect s i t) (hs : s.Sized) : t.Sized := by
  cases h with
  | fixed b _ hlen _ _ c => exact (hs.writeBytes b (bs := bytes16 c) ((by decide : 12 ≤ 20).trans hlen) :)
  | copied _ _ _ bs _ hlen hfits =>
    exact (hs.writeBytes .outB (bs := bs) (by rw [Nat.zero_add, hlen]; exact hfits hs.1) :)
  | _ => exact hs

/-- R31: no command takes back a read number. -/
theorem Effect.draws_le {i : Instr} {s t : State} (h : Effect s i t) : s.draws ≤ t.draws := by
  cases h with
  | cleared => exact le_rfl
  | raised _ hd | summed _ hd | validated _ hd | fixed _ hd | copied _ _ hd | lookedUp _ _ hd => exact hd

/-- R13: a command ends with BUSY clear. -/
theorem Effect.busy {i : Instr} {s t : State} (h : Effect s i t) : t.status.busy = false := by
  cases h <;> rfl

end Sys2Proof.Machine
end

section
/-!
PROOFS about every step: the turns of the host and the Block (R38, R45, R106), the count of reads (R31) and the
invariant of the block.
-/

namespace Sys2Proof.Machine

/-! ### The next turn -/

theorem step_nil {s : State} (h : s.agenda = []) : step s = blockTurn s := by
  simp only [step, h]

theorem step_block {s : State} {rest : List Turn} (h : s.agenda = .block :: rest) :
    step s = blockTurn { s with agenda := rest } := by
  simp only [step, h]

theorem step_host {s : State} {x : HostAccess} {rest : List Turn} (h : s.agenda = .host x :: rest) :
    step s = hostAccess x { s with agenda := rest } := by
  simp only [step, h]

theorem step_reset {s : State} {rest : List Turn} (h : s.agenda = .reset :: rest) :
    step s = .next ({ s with agenda := rest } : State).applyReset := by
  simp only [step, h]

/-- Settles O9, by the reset turn's own equation. -/
theorem resetTurnAbandonsThePendingCommand : Obligations.ResetTurnAbandonsThePendingCommand :=
  fun _ _ h => ⟨_, step_reset h, rfl, rfl, rfl⟩

/-! ### Host turns -/

/-- R38: the accesses the port performs. -/
theorem hostAccess_wf_iff (x : HostAccess) : x.wf = true ↔ x.width = 4 ∧ x.addr.toNat % 4 = 0 := by
  simp [HostAccess.wf, HostAccess.widthOk, HostAccess.aligned]

/-- R106: the accesses allowed while a command is pending. -/
theorem isStatusRead_iff (x : HostAccess) : isStatusRead x = true ↔ ∃ w, x = .read 0x0004 w := by
  cases x <;> simp [isStatusRead]

/-- R38, R106: an access inside the port's protocol takes effect. -/
theorem hostAccess_of_wf {x : HostAccess} {s : State} (hwf : x.wf = true)
    (hbusy : s.status.busy = true → isStatusRead x = true) : hostAccess x s = .next (s.perform x) := by
  obtain ⟨hwidth, haligned⟩ := Bool.and_eq_true_iff.mp hwf
  have hidle : ¬ (s.status.busy = true ∧ isStatusRead x = false) := fun ⟨hb, hread⟩ => by simp [hbusy hb] at hread
  rw [hostAccess, if_neg (by simp [hwidth]), if_neg (by simp [haligned]), if_neg hidle]

/-- R38, R106: the accesses the port refuses. -/
theorem hostAccess_refused_iff (x : HostAccess) (s : State) :
    (∃ r, hostAccess x s = .refused r) ↔
      x.width ≠ 4 ∨ x.addr.toNat % 4 ≠ 0 ∨ (s.status.busy = true ∧ ∀ w, x ≠ .read 0x0004 w) := by
  obtain ⟨hwidth, h⟩ | ⟨_, halign, h⟩ | ⟨_, hbusy, hread, h⟩ | ⟨hwf, hread, h⟩ := hostAccess_cases x s <;> rw [h]
  · exact iff_of_true ⟨_, rfl⟩ (.inl hwidth)
  · exact iff_of_true ⟨_, rfl⟩ (.inr (.inl halign))
  · have hno : ∀ w, x ≠ .read 0x0004 w := fun w hw => by simp [(isStatusRead_iff x).mpr ⟨w, hw⟩] at hread
    exact iff_of_true ⟨_, rfl⟩ (.inr (.inr ⟨hbusy, hno⟩))
  · obtain ⟨hwidth, halign⟩ := (hostAccess_wf_iff x).mp hwf
    refine iff_of_false nofun ?_
    rintro (hne | hne | ⟨hbusy, hno⟩)
    · exact hne hwidth
    · exact hne halign
    · obtain ⟨w, hw⟩ := (isStatusRead_iff x).mp (hread hbusy)
      exact hno w hw

/-- R98: an access has a next state or is refused. -/
theorem hostAccess_next_or_refused (x : HostAccess) (s : State) :
    (∃ t, hostAccess x s = .next t) ∨ ∃ r, hostAccess x s = .refused r := by
  obtain ⟨_, h⟩ | ⟨_, _, h⟩ | ⟨_, _, _, h⟩ | ⟨_, _, h⟩ := hostAccess_cases x s
  · exact .inr ⟨_, h⟩
  · exact .inr ⟨_, h⟩
  · exact .inr ⟨_, h⟩
  · exact .inl ⟨_, h⟩

/-- R38, R45: while no command is pending every aligned word access takes effect. -/
theorem hostAccess_of_idle {x : HostAccess} {s : State} (hwf : x.wf = true) (hidle : s.status.busy = false) :
    hostAccess x s = .next (s.perform x) :=
  hostAccess_of_wf hwf fun hbusy => absurd (hidle.symm.trans hbusy) nofun

/-- Settles O15, by the access's own turn and the protocol's two conditions. -/
theorem hostTurnInsideTheProtocolTakesEffect : Obligations.HostTurnInsideTheProtocolTakesEffect := by
  intro s a rest halign
  refine ⟨fun hagenda hstatus => ?_, fun v hagenda hidle => ?_⟩ <;> rw [step_host hagenda]
  · exact hostAccess_of_wf ((hostAccess_wf_iff _).mpr ⟨rfl, halign⟩)
      fun hbusy => (isStatusRead_iff _).mpr ⟨4, by rw [hstatus hbusy]⟩
  · exact hostAccess_of_idle ((hostAccess_wf_iff _).mpr ⟨rfl, halign⟩) hidle

/-- R19: a CMD write while no command is pending issues its word, whatever STATUS held. -/
theorem hostAccess_write_cmd {s : State} (hidle : s.status.busy = false) (v : Word) :
    hostAccess (.write 0x0000 4 v) s = .next (s.issue v) :=
  hostAccess_of_idle rfl hidle

/-- Settles O17, by the issue and the read of the CMD register. -/
theorem cmdWriteIssuesACommand : Obligations.CmdWriteIssuesACommand := by
  refine fun s v hidle => ⟨hostAccess_write_cmd hidle v, by decide, ?_⟩
  rintro u rfl hidle'
  exact hostAccess_of_idle rfl hidle'

/-- A host read counts the bytes it reads and keeps what it returned; it changes no state of the block (R40). -/
theorem memRead_eq (s : State) (a : PortAddr) :
    ∃ v d, s.memRead a = { s with draws := d, lastRead := some v } ∧ s.draws ≤ d := by
  unfold State.memRead
  cases placeOf s.cfg a.toNat with
  | buf b o => exact ⟨_, _, rfl, Nat.le_add_right _ _⟩
  | reg | ift | rt | unmapped => exact ⟨_, _, rfl, le_rfl⟩

/-- A host write reads no buffer byte. -/
theorem writePlace_draws (s : State) (p : Place) (v : Word) : (s.writePlace p v).draws = s.draws := by
  cases p with
  | reg r => cases r <;> rfl
  | buf b o => exact State.writeBytes_draws s b o (bytes32 v)
  | ift | rt | unmapped => rfl

theorem perform_draws_le (s : State) (x : HostAccess) : s.draws ≤ (s.perform x).draws := by
  cases x with
  | read a _ =>
    obtain ⟨v, d, h, hle⟩ := memRead_eq s a
    rw [State.perform, h]
    exact hle
  | write a _ v => exact (writePlace_draws s _ v).ge

/-! ### Block turns -/

/-- R55: the Block's turn on a legal word is the command's execution. -/
theorem blockTurn_of_decode_ok {s : State} {i : Instr} (hbusy : s.status.busy = true)
    (hword : decode s.cmd = .ok i) : blockTurn s = exec i s := by
  rw [blockTurn, if_pos hbusy, runCommand, hword]

/-- What a Block turn does: nothing while no command is pending, else the command, or E_ILLEGAL for an illegal word. -/
theorem blockTurn_next (s : State) : ∃ t, blockTurn s = .next t ∧
    ((s.status.busy = false ∧ t = s) ∨ (s.status.busy = true ∧ ∃ i, s.cmd = encode i ∧ exec i s = .next t) ∨
      (s.status.busy = true ∧ (∃ e, decode s.cmd = .error e) ∧ t = s.raise .illegal)) := by
  obtain ⟨hidle, h⟩ | ⟨hbusy, i, hword, h⟩ | ⟨hbusy, e, hword, h⟩ := blockTurn_cases s
  · exact ⟨s, h, .inl ⟨hidle, rfl⟩⟩
  · obtain ⟨t, ht, _⟩ := exec_next_effect i s
    exact ⟨t, h.trans ht, .inr (.inl ⟨hbusy, i, eq_encode_of_decode hword, ht⟩)⟩
  · exact ⟨_, h, .inr (.inr ⟨hbusy, ⟨e, hword⟩, rfl⟩)⟩

/-- R13: after a Block turn no command is pending. -/
theorem blockTurn_busy {s t : State} (h : blockTurn s = .next t) : t.status.busy = false := by
  obtain ⟨u, hu, hcases⟩ := blockTurn_next s
  obtain rfl : u = t := Host.Outcome.next.inj (hu.symm.trans h)
  obtain ⟨hidle, rfl⟩ | ⟨_, i, _, hexec⟩ | ⟨_, _, rfl⟩ := hcases
  · exact hidle
  · exact (effect_of_exec hexec).busy
  · rfl

/-- Settles O5: the next turn is the Block's, and its word decodes. -/
theorem stepRunsTheDecodedCommand : Obligations.StepRunsTheDecodedCommand := by
  intro s i hbusy hword
  refine ⟨fun hnil => ?_, fun rest hblock => ?_, fun t hexec => (effect_of_exec hexec).busy⟩
  · rw [step_nil hnil, blockTurn_of_decode_ok hbusy hword]
  · rw [step_block hblock]
    exact blockTurn_of_decode_ok hbusy hword

/-- Settles O3: the fields of the illegal words, the issue of any word and the Block's turn on an illegal one. -/
theorem illegalWordsReportOnlyEIllegal : Obligations.IllegalWordsReportOnlyEIllegal := by
  refine fun w => ⟨decode_error_iff w, fun s hillegal hidle => ⟨hostAccess_write_cmd hidle w, ?_⟩⟩
  obtain ⟨e, he⟩ := hillegal
  exact blockTurn_of_decode_error (s := { s with cmd := w, status := Status.issued }) rfl he

/-- Settles O46: a command leaves BUSY clear, so any CMD write issues, and the Block's turn runs what was issued. -/
theorem noReportedResultStopsTheNextCommand : Obligations.NoReportedResultStopsTheNextCommand := by
  intro i j s t hexec
  refine ⟨hostAccess_write_cmd (effect_of_exec hexec).busy _, fun st hidle => hostAccess_write_cmd hidle _,
    blockTurn_of_decode_ok rfl (decode_encode j), ?_⟩
  obtain ⟨v, hv, heffect⟩ := exec_next_effect j { t with cmd := encode j, status := Status.issued }
  exact ⟨v, hv, heffect.busy⟩

/-- Settles O10: only a host turn can be refused; a Block turn and a reset turn have a next state. -/
theorem onlyOutOfProtocolAccessesAreRefused : Obligations.OnlyOutOfProtocolAccessesAreRefused := by
  intro s
  obtain ⟨hagenda, h⟩ | ⟨rest, hagenda, h⟩ | ⟨x, rest, hagenda, h⟩ | ⟨rest, hagenda, h⟩ := step_cases s <;>
    rw [h, hagenda]
  · obtain ⟨t, ht, _⟩ := blockTurn_next s
    rw [ht]
    exact ⟨iff_of_false nofun nofun, .inl ⟨t, rfl⟩⟩
  · obtain ⟨t, ht, _⟩ := blockTurn_next { s with agenda := rest }
    rw [ht]
    exact ⟨iff_of_false nofun nofun, .inl ⟨t, rfl⟩⟩
  · refine ⟨(hostAccess_refused_iff x _).trans ⟨fun hx => ⟨x, rest, rfl, hx⟩, ?_⟩, hostAccess_next_or_refused x _⟩
    rintro ⟨y, rest', hcons, hy⟩
    cases hcons
    exact hy
  · exact ⟨iff_of_false nofun nofun, .inl ⟨_, rfl⟩⟩

/-! ### STATUS as a word -/

/-- A bit of a word, from the word as a number. -/
theorem getLsbD_of_toNat {w : Word} {i : Nat} {b : Bool} (h : w.toNat / 2 ^ i % 2 = b.toNat) : w.getLsbD i = b := by
  rw [BitVec.getLsbD, Nat.testBit_eq_decide_div_mod_eq, h]
  cases b <;> rfl

/-- R20: the places of the fields of STATUS. -/
theorem statusWord_fields (t : Status) :
    t.toWord.getLsbD 0 = t.busy ∧ t.toWord.extractLsb' 1 3 = 0 ∧ t.toWord.extractLsb' 4 4 = t.err ∧
      t.toWord.getLsbD 8 = t.csumOk ∧ t.toWord.getLsbD 9 = t.ttlExp ∧ t.toWord.getLsbD 10 = t.lpmHit ∧
      t.toWord.extractLsb' 11 21 = 0 := by
  have hbusy := Bool.toNat_le t.busy
  have herr := t.err.isLt
  have hcsum := Bool.toNat_le t.csumOk
  have httl := Bool.toNat_le t.ttlExp
  have hlpm := Bool.toNat_le t.lpmHit
  refine ⟨getLsbD_of_toNat ?_, BitVec.eq_of_toNat_eq ?_, BitVec.eq_of_toNat_eq ?_, getLsbD_of_toNat ?_,
    getLsbD_of_toNat ?_, getLsbD_of_toNat ?_, BitVec.eq_of_toNat_eq ?_⟩ <;>
    simp only [BitVec.extractLsb'_toNat, Nat.shiftRight_eq_div_pow, toNat_statusWord, BitVec.ofNat_eq_ofNat,
      BitVec.toNat_ofNat] <;>
    omega

/-- Settles O18, by the places of the fields and the STATUS register at the port. -/
theorem statusWordLayout : Obligations.StatusWordLayout := by
  intro s
  obtain ⟨hbusy, hlow, herr, hcsum, httl, hlpm, hhigh⟩ := statusWord_fields s.status
  exact ⟨hbusy, hlow, herr, hcsum, httl, hlpm, hhigh, memRead_reg s .status, memWrite_reg s .status⟩

/-! ### Polling -/

/-- R46: a poll of STATUS at the head of the agenda returns STATUS and leaves the rest, whether a command is pending or
not. -/
theorem step_poll {s : State} {rest : List Turn} (h : s.agenda = .host (.read 0x0004 4) :: rest) :
    step s = .next { s with agenda := rest, lastRead := some s.status.toWord } := by
  rw [step_host h]
  exact hostAccess_of_wf rfl fun _ => rfl

/-- Settles O11, by induction on the number of polls still to come. -/
theorem pendingCommandCompletesUnderPolling : Obligations.PendingCommandCompletesUnderPolling := by
  intro k
  induction k with
  | zero =>
    intro s rest _ hagenda hrest
    refine ⟨?_, fun j hj => absurd hj j.not_lt_zero⟩
    have hblock : ∃ u, step s = blockTurn u := by
      obtain rfl | ⟨r, rfl⟩ := hrest
      · exact ⟨s, step_nil hagenda⟩
      · exact ⟨_, step_block hagenda⟩
    obtain ⟨u, hu⟩ := hblock
    obtain ⟨t, ht, _⟩ := blockTurn_next u
    exact ⟨t, run_succ (hu.trans ht) 0, blockTurn_busy ht⟩
  | succ k ih =>
    intro s rest hbusy hagenda hrest
    rw [List.replicate_succ, List.cons_append] at hagenda
    have hpoll := step_poll hagenda
    obtain ⟨hends, hpolls⟩ := ih
      { s with agenda := List.replicate k (.host (.read 0x0004 4)) ++ rest, lastRead := some s.status.toWord }
      rest hbusy rfl hrest
    refine ⟨?_, fun j hj => ?_⟩
    · rw [run_succ hpoll]
      exact hends
    · rw [run_succ hpoll]
      cases j with
      | zero => exact ⟨_, _, rfl, rfl, (statusWord_fields s.status).1.trans hbusy⟩
      | succ j => exact hpolls j (Nat.lt_of_succ_lt_succ hj)

theorem blockTurn_draws_le {s t : State} (h : blockTurn s = .next t) : s.draws ≤ t.draws := by
  obtain ⟨u, hu, hcases⟩ := blockTurn_next s
  obtain rfl : u = t := Host.Outcome.next.inj (hu.symm.trans h)
  obtain ⟨_, rfl⟩ | ⟨_, i, _, hexec⟩ | ⟨_, _, rfl⟩ := hcases
  · exact le_rfl
  · exact (effect_of_exec hexec).draws_le
  · exact le_rfl

/-! ### The count of reads -/

/-- R31: no step takes back a read number, a reset turn included. -/
theorem step_draws_le {s t : State} (h : step s = .next t) : s.draws ≤ t.draws := by
  obtain ⟨_, e⟩ | ⟨rest, _, e⟩ | ⟨x, rest, _, e⟩ | ⟨rest, _, e⟩ := step_cases s <;> rw [e] at h
  · exact blockTurn_draws_le h
  · exact (blockTurn_draws_le h :)
  · obtain ⟨_, hx⟩ | ⟨_, _, hx⟩ | ⟨_, _, _, hx⟩ | ⟨_, _, hx⟩ := hostAccess_cases x { s with agenda := rest } <;>
      rw [hx] at h <;> cases h
    exact perform_draws_le { s with agenda := rest } x
  · cases h
    exact le_rfl

/-- Settles O14, by the equations of the four reads and the step lemma for the count. -/
theorem readNumbersAreNeverReused : Obligations.ReadNumbersAreNeverReused := by
  refine ⟨fun s b a => ?_, fun s t => step_draws_le⟩
  simp only [State.byteOf_eq]
  refine ⟨fun n => ⟨_, rfl, Memory.length_bytes _ _ _ _, fun k => Memory.getElem?_bytes _ _ _ _ _⟩, rfl,
    ⟨_, rfl, toNat_be16 _ _ _⟩, ⟨_, rfl, toNat_word32 _ _ _ _⟩⟩

/-! ### The invariant -/

/-- Settles O7: the tables have their lengths, the buffers hold nothing, and STATUS is 0. -/
theorem resetHasTheInvariant : Obligations.ResetHasTheInvariant := fun _ hlegal =>
  ⟨⟨hlegal, List.length_replicate, List.length_replicate, rfl, rfl, rfl, rfl⟩,
    nofun, Nat.zero_le 5, nofun, nofun, nofun, nofun⟩

/-- R19: an issued command, whose word may be any, has ERR and the flags 0. -/
theorem statusMeansCmd_of_issued {s : State} (h : s.status = Status.issued) : s.StatusMeansCmd := by
  rw [State.StatusMeansCmd, h]
  exact ⟨fun _ => rfl, by decide, nofun, nofun, nofun, nofun⟩

/-- R36: a place in a buffer lies below BUF_BYTES, at its own offset from the buffer's base. -/
theorem lt_of_placeOf_eq_buf {p : Config.Params} {a : Nat} {b : Buf} {o : Nat} (h : placeOf p a = .buf b o) :
    o < p.bufBytes ∧ a = bufBase b + o := by
  simp only [placeOf] at h
  split at h
  · split at h <;> cases h
  split at h
  · split at h <;> cases h
  split at h
  · split at h <;> cases h
  split at h
  · split at h <;> cases h
    exact ⟨by assumption, by simp only [bufBase]; omega⟩
  split at h
  · split at h <;> cases h
    exact ⟨by assumption, by simp only [bufBase]; omega⟩
  · cases h

/-- A host write at an aligned address keeps the sizes: its word lies inside the buffer (R38, R42). -/
theorem memWrite_sized {s : State} (hs : s.Sized) {a : PortAddr} (haligned : a.toNat % 4 = 0) (v : Word) :
    (s.memWrite a v).Sized := by
  obtain ⟨hlegal, hift, hrt, hbufs⟩ := id hs
  obtain ⟨hmod, _⟩ := (params_legal_iff s.cfg).mp hlegal
  unfold State.memWrite
  cases hplace : placeOf s.cfg a.toNat with
  | reg r => cases r <;> exact hs
  | ift i f => exact ⟨hlegal, List.length_set.trans hift, hrt, hbufs⟩
  | rt i f => exact ⟨hlegal, hift, List.length_set.trans hrt, hbufs⟩
  | buf b o =>
    obtain ⟨hlt, haddr⟩ := lt_of_placeOf_eq_buf hplace
    have hbase : bufBase b % 4 = 0 := by cases b <;> rfl
    have hword : o + 4 ≤ s.cfg.bufBytes := by omega
    exact hs.writeBytes b (bs := bytes32 v) hword
  | unmapped => exact hs

/-- A host write leaves CMD and STATUS, or issues a command (R19, R40). -/
theorem memWrite_status (s : State) (a : PortAddr) (v : Word) :
    ((s.memWrite a v).cmd = s.cmd ∧ (s.memWrite a v).status = s.status) ∨
      (s.memWrite a v).status = Status.issued := by
  unfold State.memWrite
  cases placeOf s.cfg a.toNat with
  | reg r =>
    cases r with
    | cmd => exact .inr rfl
    | _ => exact .inl ⟨rfl, rfl⟩
  | buf b o => exact .inl ⟨State.writeBytes_cmd s b o _, State.writeBytes_status s b o _⟩
  | ift | rt | unmapped => exact .inl ⟨rfl, rfl⟩

/-- An access inside the port's protocol keeps the invariant. -/
theorem perform_inv {s : State} (hs : s.Inv) {x : HostAccess} (hwf : x.wf = true) : (s.perform x).Inv := by
  obtain ⟨hsized, hstatus⟩ := hs
  cases x with
  | read a _ =>
    obtain ⟨v, d, h, _⟩ := memRead_eq s a
    rw [State.perform, h]
    exact ⟨hsized, hstatus⟩
  | write a _ v =>
    obtain ⟨_, haligned⟩ := (hostAccess_wf_iff _).mp hwf
    refine ⟨memWrite_sized hsized haligned v, ?_⟩
    obtain ⟨hcmd, hsame⟩ | hissued := memWrite_status s a v
    · rw [State.StatusMeansCmd]
      simp only [State.perform, hcmd, hsame]
      exact hstatus
    · exact statusMeansCmd_of_issued hissued

/-- A command that was issued leaves a STATUS that describes it (R20, R91): a flag or a code is its own, since all were
0 when it was issued. -/
theorem exec_statusMeansCmd {i : Instr} {s t : State} (hissued : s.status = Status.issued) (hcmd : s.cmd = encode i)
    (hexec : exec i s = .next t) : t.StatusMeansCmd := by
  have h := effect_of_exec hexec
  obtain ⟨hcmd', _⟩ := h.frame
  obtain ⟨hcsum, httl, hlpm⟩ := h.flags
  have hword : t.cmd = encode i := hcmd'.trans hcmd
  have hbusy : t.status.busy = true → t.status = Status.issued := fun hb => absurd (h.busy.symm.trans hb) nofun
  simp only [hissued, Status.issued, ne_eq, Bool.not_eq_false] at hcsum httl hlpm
  by_cases herr : t.status.err = 0
  · refine ⟨hbusy, herr ▸ Nat.zero_le 5, fun hset => ⟨herr, ?_⟩, fun hset => ⟨herr, hword.trans (httl hset ▸ rfl)⟩,
      fun hset => ⟨herr, ?_⟩, fun hone => absurd (herr.symm.trans hone) (by decide)⟩
    · simpa [hword] using List.mem_map_of_mem (f := encode) (hcsum hset)
    · simpa [hword] using List.mem_map_of_mem (f := encode) (hlpm hset)
  · obtain ⟨hstate, hle, hne⟩ := errorWritesOnlyStatus.1 i s t hexec herr
    have hended : t.status = { Status.issued with busy := false, err := t.status.err } :=
      hissued ▸ congrArg State.status hstate
    have hcsum' : t.status.csumOk = false := congrArg Status.csumOk hended
    have httl' : t.status.ttlExp = false := congrArg Status.ttlExp hended
    have hlpm' : t.status.lpmHit = false := congrArg Status.lpmHit hended
    exact ⟨hbusy, hle, fun hset => absurd (hcsum'.symm.trans hset) nofun,
      fun hset => absurd (httl'.symm.trans hset) nofun, fun hset => absurd (hlpm'.symm.trans hset) nofun,
      fun hone => absurd hone hne⟩

/-- An illegal word that was issued leaves a STATUS that describes it (R55, R92). -/
theorem raise_illegal_statusMeansCmd {s : State} (hissued : s.status = Status.issued)
    (hword : ∃ e, decode s.cmd = .error e) : (s.raise .illegal).StatusMeansCmd := by
  have hcmd : s.cmd ∉ Instr.all.map encode := by
    obtain ⟨e, he⟩ := hword
    intro hmem
    obtain ⟨i, _, hi⟩ := List.mem_map.mp hmem
    rw [← hi, decode_encode] at he
    cases he
  rw [State.StatusMeansCmd]
  simp only [State.raise_status, State.raise_cmd, hissued]
  exact ⟨nofun, by decide, nofun, nofun, nofun, fun _ => hcmd⟩

theorem blockTurn_inv {s t : State} (hs : s.Inv) (h : blockTurn s = .next t) : t.Inv := by
  obtain ⟨u, hu, hcases⟩ := blockTurn_next s
  obtain rfl : u = t := Host.Outcome.next.inj (hu.symm.trans h)
  obtain ⟨hsized, hstatus⟩ := id hs
  obtain ⟨_, rfl⟩ | ⟨hbusy, i, hcmd, hexec⟩ | ⟨hbusy, hword, rfl⟩ := hcases
  · exact hs
  · exact ⟨(effect_of_exec hexec).sized hsized, exec_statusMeansCmd (hstatus.1 hbusy) hcmd hexec⟩
  · exact ⟨hsized, raise_illegal_statusMeansCmd (hstatus.1 hbusy) hword⟩

/-- Settles O6: by the turns of a step, each of which keeps the sizes and leaves a STATUS that describes CMD. -/
theorem everyStepKeepsTheInvariant : Obligations.EveryStepKeepsTheInvariant := by
  intro s t hs h
  obtain ⟨_, e⟩ | ⟨rest, _, e⟩ | ⟨x, rest, _, e⟩ | ⟨rest, _, e⟩ := step_cases s <;> rw [e] at h
  · exact blockTurn_inv hs h
  · exact blockTurn_inv (s := { s with agenda := rest }) hs h
  · obtain ⟨_, hx⟩ | ⟨_, _, hx⟩ | ⟨_, _, _, hx⟩ | ⟨hwf, _, hx⟩ := hostAccess_cases x { s with agenda := rest } <;>
      rw [hx] at h <;> cases h
    exact perform_inv (s := { s with agenda := rest }) hs hwf
  · cases h
    exact resetHasTheInvariant s.cfg hs.1.1

end Sys2Proof.Machine
end

section
/-!
PROOFS of the families 10_state.md, 20_memory.md and 30_encoding.md at the host port: a host write to each kind of place
and the read-back (R36, R40, R42), and the scripts that load a table entry or a datagram (R59).
-/

namespace Sys2Proof.Machine

/-! ### Registers -/

/-- A host write to a register and a host read of it. -/
theorem memRead_memWrite_reg (s : State) (r : Reg) (v : Word) :
    (s.memWrite (BitVec.ofNat 16 r.addr) v).memRead (BitVec.ofNat 16 r.addr) =
      { s.writeReg r v with lastRead := some ((s.writeReg r v).readReg r) } := by
  rw [memWrite_reg, memRead_reg]

/-- R24, R27: a 16-bit register takes bits 15:0. -/
theorem low16_eq (v : Word) : v.extractLsb' 0 16 = BitVec.ofNat 16 v.toNat :=
  BitVec.eq_of_toNat_eq (by simp)

/-- R24, R27: a 16-bit register reads 0 above bit 15. -/
theorem zext32_low16 (v : Word) : zext32 (v.extractLsb' 0 16) = v &&& 0x0000FFFF := by
  apply BitVec.eq_of_toNat_eq
  have hmask : (0x0000FFFF : Word).toNat = 2 ^ 16 - 1 := rfl
  rw [BitVec.toNat_and, hmask, Nat.and_two_pow_sub_one_eq_mod, zext32, low16_eq]
  simp only [BitVec.toNat_setWidth, BitVec.toNat_ofNat]
  omega

/-- Settles O19, by each register's own write and read. -/
theorem registersReadBackThroughThePort : Obligations.RegistersReadBackThroughThePort := by
  intro s v
  rw [← low16_eq, ← zext32_low16]
  exact ⟨memRead_memWrite_reg s .arg0 v, memRead_memWrite_reg s .arg1 v, memRead_memWrite_reg s .acc v,
    memRead_memWrite_reg s .inLen v, memRead_memWrite_reg s .outLen v, memRead_memWrite_reg s .res0 v,
    memRead_memWrite_reg s .res1 v, memRead_memWrite_reg s .res2 v⟩

/-! ### Table entries -/

/-- Every word of an interface entry has an address of 16 bits (R7, R36). -/
theorem placeOf_iftAddr {p : Config.Params} (hlegal : p.legal = true) {i : Nat} (hi : i < p.nIf) (f : IfField) :
    placeOf p (BitVec.ofNat 16 (0x0100 + 8 * i + f.offset)).toNat = .ift i f := by
  obtain ⟨_, _, _, _, _, _, hnIf⟩ := (params_legal_iff p).mp hlegal
  have hoff : f.offset ≤ 4 := by cases f <;> decide
  rw [toNat_ofNat_of_lt (by omega), placeOf_ift hlegal hi]

/-- Every word of a route entry has an address of 16 bits (R7, R36). -/
theorem placeOf_rtAddr {p : Config.Params} (hlegal : p.legal = true) {i : Nat} (hi : i < p.nRt) (f : RtField) :
    placeOf p (BitVec.ofNat 16 (0x1000 + 16 * i + f.offset)).toNat = .rt i f := by
  obtain ⟨_, _, _, _, hnRt, _⟩ := (params_legal_iff p).mp hlegal
  have hoff : f.offset ≤ 12 := by cases f <;> decide
  rw [toNat_ofNat_of_lt (by omega), placeOf_rt hlegal hi]

/-- A host write to a word of an interface entry (R28). -/
theorem memWrite_ift {s : State} (hlegal : s.cfg.legal = true) {i : Nat} (hi : i < s.cfg.nIf) (f : IfField) (v : Word) :
    s.memWrite (BitVec.ofNat 16 (0x0100 + 8 * i + f.offset)) v =
      { s with ift := s.ift.set i ((s.ifEntry i).writeField f v) } := by
  rw [State.memWrite, placeOf_iftAddr hlegal hi, State.writePlace]

/-- A host write to a word of a route entry (R29). -/
theorem memWrite_rt {s : State} (hlegal : s.cfg.legal = true) {i : Nat} (hi : i < s.cfg.nRt) (f : RtField) (v : Word) :
    s.memWrite (BitVec.ofNat 16 (0x1000 + 16 * i + f.offset)) v =
      { s with rt := s.rt.set i ((s.rtEntry i).writeField f v) } := by
  rw [State.memWrite, placeOf_rtAddr hlegal hi, State.writePlace]

/-- An interface entry that was written reads as written. -/
theorem ifEntry_of_set {s : State} {es : List IfEntry} {i : Nat} {e : IfEntry} (h : s.ift = es.set i e)
    (hi : i < es.length) : s.ifEntry i = e := by
  simp [State.ifEntry, h, hi]

/-- A route entry that was written reads as written. -/
theorem rtEntry_of_set {s : State} {es : List RtEntry} {i : Nat} {e : RtEntry} (h : s.rt = es.set i e)
    (hi : i < es.length) : s.rtEntry i = e := by
  simp [State.rtEntry, h, hi]

/-- What a word of an interface entry reads after a host write to it. -/
theorem lastRead_memWrite_ift {s : State} (hs : s.Sized) {i : Nat} (hi : i < s.cfg.nIf) (f : IfField) (v : Word) :
    ((s.memWrite (BitVec.ofNat 16 (0x0100 + 8 * i + f.offset)) v).memRead
      (BitVec.ofNat 16 (0x0100 + 8 * i + f.offset))).lastRead =
      some (((s.ifEntry i).writeField f v).readField f) := by
  obtain ⟨hlegal, hift, _⟩ := hs
  rw [memWrite_ift hlegal hi, State.memRead, placeOf_iftAddr hlegal hi, State.readPlace, ifEntry_of_set rfl (hift ▸ hi)]

/-- What a word of a route entry reads after a host write to it. -/
theorem lastRead_memWrite_rt {s : State} (hs : s.Sized) {i : Nat} (hi : i < s.cfg.nRt) (f : RtField) (v : Word) :
    ((s.memWrite (BitVec.ofNat 16 (0x1000 + 16 * i + f.offset)) v).memRead
      (BitVec.ofNat 16 (0x1000 + 16 * i + f.offset))).lastRead =
      some (((s.rtEntry i).writeField f v).readField f) := by
  obtain ⟨hlegal, _, hrt, _⟩ := hs
  rw [memWrite_rt hlegal hi, State.memRead, placeOf_rtAddr hlegal hi, State.readPlace, rtEntry_of_set rfl (hrt ▸ hi)]

/-- R28: of an interface entry's control word bit 0 alone reads back. -/
theorem ifEntry_ctrl_withCtrl (e : IfEntry) (v : Word) : (e.withCtrl v).ctrl = v &&& 0x00000001 := by
  apply BitVec.eq_of_toNat_eq
  have hmask : (0x00000001 : Word).toNat = 2 ^ 1 - 1 := rfl
  have hbit : (v.getLsbD 0).toNat = v.toNat % 2 := by
    rw [BitVec.getLsbD, Nat.testBit_zero]
    rcases Nat.mod_two_eq_zero_or_one v.toNat with h | h <;> simp [h]
  rw [BitVec.toNat_and, hmask, Nat.and_two_pow_sub_one_eq_mod, IfEntry.ctrl, IfEntry.withCtrl, BitVec.toNat_ofNat, hbit]
  omega

/-- R29: of a route entry's control word bits 31 and 4:0 alone read back. -/
theorem rtEntry_ctrl_withCtrl (e : RtEntry) (v : Word) : (e.withCtrl v).ctrl = v &&& 0x8000001F := by
  have hmask : ∀ k < 32, (0x8000001F : Word).getLsbD k = (decide (k < 5) || decide (k = 31)) := by decide
  have hlow : (v.extractLsb' 0 5).toNat < 2 ^ 31 := (BitVec.isLt _).trans (by decide)
  apply BitVec.eq_of_getLsbD_eq
  intro k hk
  rw [BitVec.getLsbD_and, hmask k hk, RtEntry.ctrl, RtEntry.withCtrl, BitVec.getLsbD_ofNat, Nat.mul_comm,
    Nat.testBit_two_pow_mul_add _ hlow]
  split
  next hlt =>
    have hne : k ≠ 31 := by omega
    have hegress : (v.extractLsb' 0 5).toNat.testBit k = (decide (k < 5) && v.getLsbD k) := by
      rw [BitVec.testBit_toNat, BitVec.getLsbD_extractLsb', Nat.zero_add]
    change (decide (k < 32) && (v.extractLsb' 0 5).toNat.testBit k) = _
    rw [hegress, decide_eq_true hk, decide_eq_false hne, Bool.true_and, Bool.or_false, Bool.and_comm]
  next hge =>
    obtain rfl : k = 31 := by omega
    change (decide (31 < 32) && (v.getLsbD 31).toNat.testBit (31 - 31)) = _
    cases v.getLsbD 31 <;> decide

/-- Settles O21, by the write and the read-back of each word of a table entry. -/
theorem tableWordsReadBackThroughThePort : Obligations.TableWordsReadBackThroughThePort := by
  intro s v hs
  refine ⟨fun i hi => ?_, fun i hi => ?_⟩
  · have hctrl : 0x0104 + 8 * i = 0x0100 + 8 * i + IfField.ctrl.offset := by simp only [IfField.offset]; omega
    rw [hctrl, ← ifEntry_ctrl_withCtrl (s.ifEntry i) v]
    exact ⟨memWrite_ift hs.1 hi .addr v, memWrite_ift hs.1 hi .ctrl v, lastRead_memWrite_ift hs hi .addr v,
      lastRead_memWrite_ift hs hi .ctrl v⟩
  · have hmask : 0x1004 + 16 * i = 0x1000 + 16 * i + RtField.mask.offset := by simp only [RtField.offset]; omega
    have hgateway : 0x1008 + 16 * i = 0x1000 + 16 * i + RtField.gateway.offset := by
      simp only [RtField.offset]; omega
    have hctrl : 0x100C + 16 * i = 0x1000 + 16 * i + RtField.ctrl.offset := by simp only [RtField.offset]; omega
    simp only [List.forall_mem_cons, List.not_mem_nil, false_imp_iff, implies_true, and_true]
    rw [hmask, hgateway, hctrl, ← rtEntry_ctrl_withCtrl (s.rtEntry i) v]
    exact ⟨memWrite_rt hs.1 hi .pfx v, memWrite_rt hs.1 hi .mask v, memWrite_rt hs.1 hi .gateway v,
      memWrite_rt hs.1 hi .ctrl v, ⟨lastRead_memWrite_rt hs hi .pfx v, lastRead_memWrite_rt hs hi .mask v,
      lastRead_memWrite_rt hs hi .gateway v⟩, lastRead_memWrite_rt hs hi .ctrl v⟩

/-! ### Buffer words -/

/-- Every offset of a buffer has an address of 16 bits (R7, R36). -/
theorem placeOf_bufAddr {p : Config.Params} (hlegal : p.legal = true) (b : Buf) {o : Nat} (ho : o < p.bufBytes) :
    placeOf p (BitVec.ofNat 16 (bufBase b + o)).toNat = .buf b o := by
  obtain ⟨_, _, hbytes, _⟩ := (params_legal_iff p).mp hlegal
  have hbase : bufBase b ≤ 0x8000 := by cases b <;> decide
  rw [toNat_ofNat_of_lt (by omega), placeOf_buf hlegal b ho]

/-- A host write of a buffer word writes its four bytes (R42). -/
theorem memWrite_buf {s : State} (hlegal : s.cfg.legal = true) (b : Buf) {o : Nat} (ho : o < s.cfg.bufBytes)
    (v : Word) :
    s.memWrite (BitVec.ofNat 16 (bufBase b + o)) v = s.writeBytes b o (bytes32 v) := by
  rw [State.memWrite, placeOf_bufAddr hlegal b ho, State.writePlace]

/-- A host read of a buffer word reads its four bytes (R42). -/
theorem memRead_buf {s : State} (hlegal : s.cfg.legal = true) (b : Buf) {o : Nat} (ho : o < s.cfg.bufBytes) :
    s.memRead (BitVec.ofNat 16 (bufBase b + o)) =
      { s with draws := s.draws + 4, lastRead := some (Memory.be32 (s.buf b) s.draws o) } := by
  rw [State.memRead, placeOf_bufAddr hlegal b ho, State.readPlace, State.read32_eq]

/-- A write to a buffer changes the buffers alone. -/
theorem writeBytes_frame (s : State) (b : Buf) (a : Nat) (bs : List Byte) :
    s.writeBytes b a bs =
      { s with inBuf := (s.writeBytes b a bs).inBuf, outBuf := (s.writeBytes b a bs).outBuf } := by
  cases b <;> rfl

/-- A byte inside a range that is written. -/
theorem cell_writeBytes_of_lt (s : State) (b : Buf) (a : Nat) {bs : List Byte} {k : Nat} (hk : k < bs.length) :
    (s.writeBytes b a bs).cell b (a + k) = bs[k]? := by
  rw [cell_writeBytes, if_pos ⟨rfl, by omega, by omega⟩, Nat.add_sub_cancel_left]

/-- A byte outside a range that is written. -/
theorem cell_writeBytes_of_not {s : State} {b : Buf} {a : Nat} {bs : List Byte} {b' : Buf} {k : Nat}
    (h : ¬ (b' = b ∧ a ≤ k ∧ k < a + bs.length)) : (s.writeBytes b a bs).cell b' k = s.cell b' k := by
  rw [cell_writeBytes, if_neg h]

/-- Settles O22, by the bytes of a word in the buffer's order. -/
theorem bufferLanesAreBigEndian : Obligations.BufferLanesAreBigEndian := by
  intro s b o v hlegal _ ho
  refine ⟨⟨_, rfl, ?_⟩, ⟨_, memRead_buf hlegal b ho, word32_lanes _ _ _ _⟩⟩
  rw [memWrite_buf hlegal b ho]
  have hbyte (k : Nat) (hk : k < 4) := cell_writeBytes_of_lt s b o (bs := bytes32 v) hk
  exact ⟨hbyte 0 (by decide), hbyte 1 (by decide), hbyte 2 (by decide), hbyte 3 (by decide),
    fun b' a hout => cell_writeBytes_of_not hout, writeBytes_frame s b o _⟩

/-! ### Scripts -/

/-- A run that begins with a host write inside the protocol. -/
theorem run_wrTurn {s : State} {a : PortAddr} {v : Word} {rest : List Turn} (hagenda : s.agenda = wrTurn a v :: rest)
    (hidle : s.status.busy = false) (halign : a.toNat % 4 = 0) (n : Nat) :
    Host.Core.run Sys2Proof.core (n + 1) s =
      Host.Core.run Sys2Proof.core n (({ s with agenda := rest } : State).memWrite a v) :=
  run_succ ((hostTurnInsideTheProtocolTakesEffect s a rest halign).2 v hagenda hidle) n

/-- A run that begins with a write to a word of an interface entry. -/
theorem run_wrTurn_ift {s : State} {i : Nat} {f : IfField} {v : Word} {rest : List Turn}
    (hlegal : s.cfg.legal = true) (hi : i < s.cfg.nIf) (hidle : s.status.busy = false)
    (hagenda : s.agenda = wrTurn (ScriptAddr.ift i f).addr v :: rest) (n : Nat) :
    Host.Core.run Sys2Proof.core (n + 1) s = Host.Core.run Sys2Proof.core n
      { s with ift := s.ift.set i ((s.ifEntry i).writeField f v), agenda := rest } := by
  have halign : (ScriptAddr.ift i f).addr.toNat % 4 = 0 := by
    have hoff : f.offset % 4 = 0 := by cases f <;> rfl
    rw [ScriptAddr.addr, BitVec.toNat_ofNat]
    omega
  rw [run_wrTurn hagenda hidle halign]
  exact congrArg _ (memWrite_ift (s := { s with agenda := rest }) hlegal hi f v)

/-- A run that begins with a write to a word of a route entry. -/
theorem run_wrTurn_rt {s : State} {i : Nat} {f : RtField} {v : Word} {rest : List Turn}
    (hlegal : s.cfg.legal = true) (hi : i < s.cfg.nRt) (hidle : s.status.busy = false)
    (hagenda : s.agenda = wrTurn (ScriptAddr.rt i f).addr v :: rest) (n : Nat) :
    Host.Core.run Sys2Proof.core (n + 1) s = Host.Core.run Sys2Proof.core n
      { s with rt := s.rt.set i ((s.rtEntry i).writeField f v), agenda := rest } := by
  have halign : (ScriptAddr.rt i f).addr.toNat % 4 = 0 := by
    have hoff : f.offset % 4 = 0 := by cases f <;> rfl
    rw [ScriptAddr.addr, BitVec.toNat_ofNat]
    omega
  rw [run_wrTurn hagenda hidle halign]
  exact congrArg _ (memWrite_rt (s := { s with agenda := rest }) hlegal hi f v)

/-- R59: the value `ldroute` writes to a route entry's control word, as its fields. -/
theorem ldroute_ctrl (e : BitVec 5) :
    (0x80000000 + e.setWidth 32 : Word).getLsbD 31 = true ∧
      (0x80000000 + e.setWidth 32 : Word).extractLsb' 0 5 = e := by
  have he := e.isLt
  have hnat : (0x80000000 + e.setWidth 32 : Word).toNat = 0x80000000 + e.toNat := by
    have hbit : (0x80000000 : Word).toNat = 0x80000000 := rfl
    rw [BitVec.toNat_add, BitVec.toNat_setWidth, hbit]
    omega
  refine ⟨getLsbD_of_toNat (b := true) (by rw [hnat, Bool.toNat_true]; omega), BitVec.eq_of_toNat_eq ?_⟩
  rw [BitVec.extractLsb'_toNat, hnat, Nat.shiftRight_eq_div_pow]
  omega

/-- R59: host writes to the words of one route entry, in order. -/
theorem run_wrTurns_rt {i : Nat} (fs : List (RtField × Word)) {s : State} {rest : List Turn}
    (hlegal : s.cfg.legal = true) (hi : i < s.cfg.nRt) (hlen : i < s.rt.length) (hidle : s.status.busy = false)
    (hagenda : s.agenda = fs.map (fun q => wrTurn (ScriptAddr.rt i q.1).addr q.2) ++ rest) :
    Host.Core.run Sys2Proof.core fs.length s = .next { s with
      rt := s.rt.set i (fs.foldl (fun e q => e.writeField q.1 q.2) (s.rtEntry i)), agenda := rest } := by
  induction fs generalizing s with
  | nil =>
    obtain rfl : s.agenda = rest := hagenda
    rw [List.length_nil, run_zero, List.foldl_nil, State.rtEntry, List.getD_eq_getElem _ _ hlen, List.set_getElem_self]
  | cons q fs ih =>
    refine (run_wrTurn_rt hlegal hi hidle hagenda fs.length).trans ((ih ?_ ?_ ?_ ?_ rfl).trans ?_)
    · exact hlegal
    · exact hi
    · simpa using hlen
    · exact hidle
    · have hentry (e : RtEntry) (ts : List Turn) :
          ({ s with rt := s.rt.set i e, agenda := ts } : State).rtEntry i = e := rtEntry_of_set rfl hlen
      rw [hentry, List.set_set, List.foldl_cons]

/-- Settles O24: each turn writes one word of the entry, and the last leaves it whole. -/
theorem tableLoadsWriteOneEntry : Obligations.TableLoadsWriteOneEntry := by
  intro s rest hs hidle
  obtain ⟨hlegal, hift, hrt, _⟩ := hs
  refine ⟨fun i a hi hagenda => ?_, fun i p m g e hi hagenda => ?_⟩
  · refine (run_wrTurn_ift hlegal hi hidle hagenda 1).trans ((run_wrTurn_ift ?_ ?_ ?_ rfl 0).trans ?_)
    · exact hlegal
    · exact hi
    · exact hidle
    · have hentry (e : IfEntry) (ts : List Turn) :
          ({ s with ift := s.ift.set i e, agenda := ts } : State).ifEntry i = e := ifEntry_of_set rfl (hift ▸ hi)
      rw [hentry, List.set_set]
      rfl
  · refine (run_wrTurns_rt [(.pfx, p), (.mask, m), (.gateway, g), (.ctrl, 0x80000000 + e.setWidth 32)] hlegal hi
      (hrt ▸ hi) hidle hagenda).trans ?_
    obtain ⟨hv, hegress⟩ := ldroute_ctrl e
    simp only [List.foldl_cons, List.foldl_nil, RtEntry.writeField, RtEntry.withCtrl, hv, hegress]

/-- Bytes written one range after the other are written as one range. -/
theorem setBytes_append (bs cs : List Byte) (m : Memory) (a : Nat) :
    Memory.setBytes m a (bs ++ cs) = Memory.setBytes (Memory.setBytes m a bs) (a + bs.length) cs := by
  induction bs generalizing m a with
  | nil => rfl
  | cons b bs ih =>
    rw [List.cons_append, Memory.setBytes, ih, Memory.setBytes, List.length_cons]
    congr 1
    omega

theorem writeBytes_append (s : State) (b : Buf) (a : Nat) (bs cs : List Byte) :
    (s.writeBytes b a bs).writeBytes b (a + bs.length) cs = s.writeBytes b a (bs ++ cs) := by
  cases b <;> simp [setBytes_append]

/-- The bytes of a word made of four bytes (R42). -/
theorem bytes32_word32 (b0 b1 b2 b3 : Byte) : bytes32 (word32 b0 b1 b2 b3) = [b0, b1, b2, b3] := by
  obtain ⟨h0, h1, h2, h3⟩ := word32_lanes b0 b1 b2 b3
  rw [bytes32, h0, h1, h2, h3]

/-- R59: the bytes `wrbuf` writes: those given, and 00 up to the end of the last word. -/
def padWords (bs : List Byte) : List Byte := bs ++ List.replicate (4 * ((bs.length + 3) / 4) - bs.length) 0

theorem length_padWords (bs : List Byte) : (padWords bs).length = 4 * ((bs.length + 3) / 4) := by
  rw [padWords, List.length_append, List.length_replicate]
  omega

/-- The padding of a last word of one to three bytes. -/
theorem padWords_short {bs : List Byte} (hne : bs ≠ []) (hlen : bs.length ≤ 4) :
    padWords bs = bs ++ List.replicate (4 - bs.length) 0 := by
  have hpos := List.length_pos_iff.mpr hne
  rw [padWords, show 4 * ((bs.length + 3) / 4) = 4 by omega]

theorem padWords_cons4 (b0 b1 b2 b3 : Byte) (bs : List Byte) :
    padWords (b0 :: b1 :: b2 :: b3 :: bs) = [b0, b1, b2, b3] ++ padWords bs := by
  have hpad : 4 * ((bs.length + 1 + 1 + 1 + 1 + 3) / 4) - (bs.length + 1 + 1 + 1 + 1) =
      4 * ((bs.length + 3) / 4) - bs.length := by omega
  simp only [padWords, List.length_cons, hpad, List.cons_append, List.nil_append]

/-- A run that begins with a write of the word of four bytes to a buffer. -/
theorem run_wrTurn_buf {s : State} {b : Buf} {o : Nat} {b0 b1 b2 b3 : Byte} {rest : List Turn}
    (hlegal : s.cfg.legal = true) (ho : o < s.cfg.bufBytes) (halign : o % 4 = 0) (hidle : s.status.busy = false)
    (hagenda : s.agenda = wrTurn (BitVec.ofNat 16 (bufBase b + o)) (word32 b0 b1 b2 b3) :: rest) (n : Nat) :
    Host.Core.run Sys2Proof.core (n + 1) s = Host.Core.run Sys2Proof.core n
      { s.writeBytes b o [b0, b1, b2, b3] with agenda := rest } := by
  have haddr : (BitVec.ofNat 16 (bufBase b + o)).toNat % 4 = 0 := by
    have hbase : bufBase b % 4 = 0 := by cases b <;> rfl
    rw [BitVec.toNat_ofNat]
    omega
  have hwrite := memWrite_buf (s := { s with agenda := rest }) hlegal b ho (word32 b0 b1 b2 b3)
  rw [run_wrTurn hagenda hidle haddr, hwrite, bytes32_word32]
  cases b <;> rfl

/-- R59, `wrbuf`: its turns write the padded bytes and nothing else. -/
theorem run_wrbufTurns {b : Buf} {a o : Nat} {bs : List Byte} {s : State} {rest : List Turn} (ha : a = bufBase b + o)
    (hlegal : s.cfg.legal = true) (halign : o % 4 = 0) (hfits : o + bs.length ≤ s.cfg.bufBytes)
    (hidle : s.status.busy = false) (hagenda : s.agenda = wrbufTurns a bs ++ rest) (n : Nat) :
    Host.Core.run Sys2Proof.core (n + (wrbufTurns a bs).length) s =
      Host.Core.run Sys2Proof.core n { s.writeBytes b o (padWords bs) with agenda := rest } := by
  induction a, bs using wrbufTurns.induct generalizing o s n with
  | case1 =>
    obtain rfl : s.agenda = rest := hagenda
    cases b <;> rfl
  | case2 a b0 | case3 a b0 b1 | case4 a b0 b1 b2 =>
    subst ha
    simp only [List.length_cons] at hfits
    rw [padWords_short (List.cons_ne_nil _ _) (by simp)]
    exact run_wrTurn_buf hlegal (by omega) halign hidle hagenda n
  | case5 a b0 b1 b2 b3 bs ih =>
    subst ha
    simp only [List.length_cons] at hfits
    have hstep := run_wrTurn_buf hlegal (by omega) halign hidle hagenda (n + (wrbufTurns (bufBase b + o + 4) bs).length)
    refine hstep.trans ((ih (o := o + 4) (by omega) ?_ ?_ ?_ ?_ rfl n).trans ?_)
    · cases b <;> exact hlegal
    · omega
    · cases b <;> exact (by omega : o + 4 + bs.length ≤ s.cfg.bufBytes)
    · cases b <;> exact hidle
    · rw [padWords_cons4, ← writeBytes_append]
      cases b <;> rfl

/-- Settles O23: the turns of `wrbuf` at offset 0 of IN, then the write to IN_LEN. -/
theorem ldinLoadsTheDatagram : Obligations.LdinLoadsTheDatagram := by
  intro s bs rest hlegal hidle hfits hagenda
  obtain ⟨_, _, hcap, _⟩ := (params_legal_iff s.cfg).mp hlegal
  have hlen : BitVec.extractLsb' 0 16 (BitVec.ofNat 32 bs.length) = BitVec.ofNat 16 bs.length := by
    rw [low16_eq, toNat_ofNat_of_lt (by omega)]
  have hload := run_wrbufTurns (b := .inB) (o := 0) (s := s) rfl hlegal rfl (by omega) hidle
    (hagenda.trans (List.append_assoc _ _ _)) 1
  have hwritten := cell_writeBytes s .inB 0 (padWords bs) .inB
  rw [length_padWords] at hwritten
  refine ⟨{ s.writeBytes .inB 0 (padWords bs) with inLen := BitVec.ofNat 16 bs.length, agenda := rest }, ?_, rfl,
    fun k hk => ?_, fun k hlow hhigh => ?_, fun k hk => ?_⟩
  · rw [Stmt.expand, List.length_append, Nat.add_comm]
    refine hload.trans
      ((run_wrTurn (s := { s.writeBytes .inB 0 (padWords bs) with agenda := _ }) rfl hidle rfl 0).trans ?_)
    rw [← hlen]
    rfl
  · refine (hwritten (0 + k)).trans ?_
    rw [if_pos ⟨rfl, by omega, by omega⟩, padWords, List.getElem?_append_left (by omega)]
    simp
  · refine (hwritten k).trans ?_
    rw [if_pos ⟨rfl, by omega, by omega⟩, padWords, List.getElem?_append_right (by omega), List.getElem?_replicate,
      if_pos (by omega)]
  · refine (hwritten k).trans ?_
    rw [if_neg (by omega)]

end Sys2Proof.Machine
end

section
/-!
PROOFS of the family 40_checksum.md, the commands: CSUM.ADD (R68), CSUM.VAL (R69), CSUM.FIX (R71) and HDR.FWD (R72).
`csumVal_of_holds` is the one reason a checksum that was stored validates: a buffer that holds a header with the
complement of its own sum passes, whoever wrote it.
-/

namespace Sys2Proof.Machine

/-! ### Operands -/

theorem argOff_eq (s : State) : s.argOff = s.arg0.toNat % 2 ^ 16 := by
  rw [State.argOff, low16_eq, BitVec.toNat_ofNat]

theorem argCount_eq (s : State) : s.argCount = s.arg1.toNat % 2 ^ 16 := by
  rw [State.argCount, low16_eq, BitVec.toNat_ofNat]

/-! ### CSUM.ADD -/

/-- R68: a range inside the buffer is summed. -/
theorem csumAdd_of_le {b : Buf} {s : State} (h : s.argOff + s.argCount ≤ s.cfg.bufBytes) :
    csumAdd b s = { s with
      acc := ocsum s.acc (Memory.bytes (s.buf b) s.draws s.argOff s.argCount)
      res0 := zext32 (complement16 (ocsum s.acc (Memory.bytes (s.buf b) s.draws s.argOff s.argCount)))
      status := s.ended 0, draws := s.draws + s.argCount } := by
  obtain ⟨hout, _⟩ | ⟨_, e⟩ := csumAdd_cases b s
  · omega
  · exact e

/-- R68: a range that leaves the buffer reports E_RANGE. -/
theorem csumAdd_of_lt {b : Buf} {s : State} (h : s.cfg.bufBytes < s.argOff + s.argCount) :
    csumAdd b s = s.raise .range := by
  obtain ⟨_, e⟩ | ⟨hfits, _⟩ := csumAdd_cases b s
  · exact e
  · omega

/-- Settles O28: the sum of the range is the one's-complement sum of its words. -/
theorem csumAddSumsARange : Obligations.CsumAddSumsARange := by
  intro b s
  simp only [← argOff_eq, ← argCount_eq, exec_csumAddOf]
  exact ⟨fun hfits => ⟨_, isOcSum_ocsum _ _, congrArg _ (csumAdd_of_le hfits)⟩,
    fun hout => congrArg _ (csumAdd_of_lt hout)⟩

/-! ### The sum of a header -/

/-- R64: the machine's header sum is the one's-complement sum of the header's words with the checksum field zeroed. -/
theorem isOcSum_hsum {h : List Byte} (hlen : 12 ≤ h.length) : IsOcSum (hsum h) 0 (headerWords h) :=
  wordsOf_zeroChecksum hlen ▸ isOcSum_ocsum 0 (zeroChecksum h)

/-- R64: the header sum does not depend on the checksum stored. -/
theorem hsum_storeChecksum (h : List Byte) (c : Half) : hsum (storeChecksum h c) = hsum h := by
  have hzero : zeroChecksum (storeChecksum h c) = zeroChecksum h := by
    rw [zeroChecksum, storeChecksum, List.set_comm _ _ (by decide : offChecksum + 1 ≠ offChecksum), List.set_set,
      List.set_set, zeroChecksum]
  rw [hsum, hzero, hsum]

/-- R71: the sum of a header whose first byte is not 0 is not 0. -/
theorem hsum_ne_zero {b0 : Byte} {rest : List Byte} (hne : b0 ≠ 0) (hlen : 12 ≤ (b0 :: rest).length) :
    hsum (b0 :: rest) ≠ 0 := by
  obtain _ | ⟨b1, rest⟩ := rest
  · simp at hlen
  · intro hsum
    obtain ⟨_, hwords⟩ := (ocsum_eq_zero_iff 0 _).mp hsum
    have hfirst : b0.toNat * 256 + b1.toNat = 0 := hwords _ List.mem_cons_self
    exact hne (BitVec.eq_of_toNat_eq (by simp; omega))

/-- The bytes of a header with a checksum stored. -/
theorem getElem?_storeChecksum {h : List Byte} (hlen : 12 ≤ h.length) (c : Half) (k : Nat) :
    (storeChecksum h c)[k]? =
      if k = 10 then some (c.extractLsb' 8 8) else if k = 11 then some (c.extractLsb' 0 8) else h[k]? := by
  rw [storeChecksum, offChecksum]
  by_cases h11 : k = 11
  · subst h11
    rw [if_neg (by decide), if_pos rfl, List.getElem?_set_self (by rw [List.length_set]; omega)]
  · rw [List.getElem?_set_ne (Ne.symm h11), if_neg h11]
    by_cases h10 : k = 10
    · subst h10
      rw [if_pos rfl, List.getElem?_set_self (by omega)]
    · rw [if_neg h10, List.getElem?_set_ne (Ne.symm h10)]

/-- Storing a checksum in a datagram stores it in its header. -/
theorem take_storeChecksum (h : List Byte) (c : Half) (n : Nat) :
    (storeChecksum h c).take n = storeChecksum (h.take n) c := by
  simp only [storeChecksum, List.take_set]

/-- The 16-bit number whose bytes are those of `c` is `c` (R42). -/
theorem word16_halves (c : Half) : word16 (c.extractLsb' 8 8) (c.extractLsb' 0 8) = c :=
  BitVec.eq_of_toNat_eq (by rw [toNat_word16, toNat_halves])

/-! ### CSUM.VAL -/

/-- R69: what CSUM.VAL reports of a header that passes the check. -/
theorem csumVal_of_ok {b : Buf} {s : State} (hok : s.HeaderOk b) :
    csumVal b s =
      (let h := Memory.bytes (s.buf b) (s.draws + 1) 0 (4 * s.ihl b)
       let st := Memory.be16 (s.buf b) (s.draws + 1 + 4 * s.ihl b) 10
       { s with
          acc := hsum h, res0 := zext32 (~~~hsum h), res1 := zext32 st
          status := { s.ended 0 with csumOk := decide (st = 0 ∨ st = ~~~hsum h) }
          draws := s.draws + 1 + 4 * s.ihl b + 2 }) := by
  obtain ⟨hno, _⟩ | ⟨_, _, _, rfl, rfl, e⟩ := csumVal_cases b s
  · exact absurd hok hno
  · simp only [e, complement16, Bool.decide_or, beq_eq_decide]

/-- R69: a failed header check. -/
theorem csumVal_of_not_ok {b : Buf} {s : State} (hno : ¬ s.HeaderOk b) :
    ∃ d, csumVal b s = { s with status := s.ended 3, draws := d } := by
  obtain ⟨_, d, e, _⟩ | ⟨hok, _⟩ := csumVal_cases b s
  · exact ⟨d, e⟩
  · exact absurd hok hno

/-- R65: a header that passes the check has at least 12 bytes to sum. -/
theorem headerOk_length {b : Buf} {s : State} (hok : s.HeaderOk b) (d a : Nat) :
    12 ≤ (Memory.bytes (s.buf b) d a (4 * s.ihl b)).length := by
  obtain ⟨_, _, hmin, _⟩ := hok
  rw [Memory.length_bytes]
  omega

/-- Settles O29: CSUM.VAL's sum is the one's-complement sum of the header's words. -/
theorem csumValReportsTheHeaderChecksum : Obligations.CsumValReportsTheHeaderChecksum := by
  intro b s hok
  refine ⟨_, isOcSum_hsum (headerOk_length hok _ _), ?_⟩
  rw [exec_csumValOf, csumVal_of_ok hok]
  rfl

/-! ### CSUM.FIX -/

/-- R71: what CSUM.FIX does to a header that passes the check. -/
theorem csumFix_of_ok {b : Buf} {s : State} (hok : s.HeaderOk b) :
    csumFix b s =
      (let h := Memory.bytes (s.buf b) (s.draws + 1) 0 (4 * s.ihl b)
       { s.writeBytes b 10 (bytes16 (~~~hsum h)) with
          acc := hsum h, res0 := zext32 (~~~hsum h), status := s.ended 0, draws := s.draws + 1 + 4 * s.ihl b }) := by
  obtain ⟨hno, _⟩ | ⟨_, _, rfl, e⟩ := csumFix_cases b s
  · exact absurd hok hno
  · exact e

/-- R71: a failed header check. -/
theorem csumFix_of_not_ok {b : Buf} {s : State} (hno : ¬ s.HeaderOk b) :
    ∃ d, csumFix b s = { s with status := s.ended 3, draws := d } := by
  obtain ⟨_, d, e, _⟩ | ⟨hok, _⟩ := csumFix_cases b s
  · exact ⟨d, e⟩
  · exact absurd hok hno

/-- A written byte is the one that reads return, whatever number the read carries (R31). -/
theorem get?_of_written {m : Memory} {a : Nat} (h : Memory.get? m a ≠ none) (d : Nat) :
    Memory.get? m a = some (Memory.byteAt m d a) := by
  obtain ⟨v, hv⟩ := Option.ne_none_iff_exists'.mp h
  rw [hv, Memory.byteAt_of_get? hv]

/-- R60: where the first byte is written, the IHL of the check is that of any read of it. -/
theorem ihl_of_written {b : Buf} {s : State} (h : s.cell b 0 ≠ none) (d : Nat) :
    s.ihl b = (Memory.byteAt (s.buf b) d 0).toNat % 16 := by
  rw [State.ihl, Memory.byteAt_of_get? (get?_of_written h d)]

/-- R71: where the first byte is written, the sum of a header that passes the check is not 0. -/
theorem hsum_header_ne_zero {b : Buf} {s : State} (hok : s.HeaderOk b) (hwritten : s.cell b 0 ≠ none) (d : Nat) :
    hsum (Memory.bytes (s.buf b) d 0 (4 * s.ihl b)) ≠ 0 := by
  obtain ⟨_, _, hmin, _⟩ := id hok
  have hlen := headerOk_length hok d 0
  obtain ⟨n, hn⟩ : ∃ n, 4 * s.ihl b = n + 1 := ⟨4 * s.ihl b - 1, by omega⟩
  rw [hn] at hlen ⊢
  refine hsum_ne_zero (fun hzero => ?_) hlen
  have hihl : s.ihl b = 0 := by
    rw [ihl_of_written hwritten d, hzero]
    rfl
  omega

/-- Settles O30: the bytes CSUM.FIX writes are those of the complement, which is 0xFFFF only for the sum 0. -/
theorem csumFixStoresTheHeaderChecksum : Obligations.CsumFixStoresTheHeaderChecksum := by
  intro b s hok h
  refine ⟨hsum h, _, isOcSum_hsum (headerOk_length hok _ _),
    (exec_csumFixOf b s).trans (congrArg _ (csumFix_of_ok hok)), ?_, ?_, ?_, fun b' a hout => ?_,
    fun hwritten hones => ?_⟩
  · cases b <;> rfl
  · exact cell_writeBytes_of_lt s b 10 (bs := bytes16 (~~~hsum h)) (k := 0) Nat.two_pos
  · exact cell_writeBytes_of_lt s b 10 (bs := bytes16 (~~~hsum h)) (k := 1) Nat.one_lt_two
  · refine cell_writeBytes_of_not (s := s) (bs := bytes16 (~~~hsum h)) fun ⟨hb, hle, hlt⟩ => hout ⟨hb, ?_⟩
    simp only [bytes16, List.length_cons, List.length_nil] at hlt
    omega
  · exact hsum_header_ne_zero hok hwritten _ ((BitVec.not_eq_comm.mp hones).trans (by decide))

/-! ### A stored checksum validates -/

/-- A byte of a range that is written from offset 0. -/
theorem cell_writeBytes_zero (s : State) (b : Buf) {bs : List Byte} {k : Nat} (hk : k < bs.length) :
    (s.writeBytes b 0 bs).cell b k = bs[k]? := by
  have h := cell_writeBytes_of_lt s b 0 hk
  rwa [Nat.zero_add] at h

/-- What a buffer holds depends on the buffer alone. -/
theorem holds_of_buf_eq {s u : State} {b : Buf} {a : Nat} {bs : List Byte} (hbuf : u.buf b = s.buf b)
    (h : s.Holds b a bs) : u.Holds b a bs := by
  intro k hk
  rw [State.cell, hbuf]
  exact h k hk

/-- Bytes that were written are held (R31). -/
theorem holds_writeBytes (s : State) (b : Buf) (a : Nat) (bs : List Byte) : (s.writeBytes b a bs).Holds b a bs :=
  fun _ hk => cell_writeBytes_of_lt s b a hk

/-- The first of the held bytes. -/
theorem State.Holds.take {s : State} {b : Buf} {a : Nat} {bs : List Byte} (h : s.Holds b a bs) (n : Nat) :
    s.Holds b a (bs.take n) := by
  intro k hk
  rw [List.length_take] at hk
  rw [List.getElem?_take_of_lt (by omega), h k (by omega)]

/-- Held bytes read as themselves, whatever numbers the reads carry. -/
theorem bytes_of_holds {s : State} {b : Buf} {a : Nat} {bs : List Byte} (h : s.Holds b a bs) {n : Nat}
    (hn : bs.length = n) (d : Nat) : Memory.bytes (s.buf b) d a n = bs :=
  Memory.bytes_of_written _ d a bs hn (hn ▸ h)

/-- R69, R71: a buffer that holds a header with the complement of its own sum passes CSUM.VAL, with that complement as
the computed checksum and as the stored one. -/
theorem csumVal_of_holds {u : State} {b : Buf} {b0 : Byte} {h : List Byte} (hfirst : h[0]? = some b0)
    (hlen : h.length = 4 * (b0.toNat % 16)) (hmin : 20 ≤ h.length) (hfits : h.length ≤ u.lenOf b)
    (hcap : u.lenOf b ≤ u.cfg.bufBytes) (hholds : u.Holds b 0 (storeChecksum h (~~~hsum h))) :
    ∃ v, exec (csumValOf b) u = .next v ∧ v.status.csumOk = true ∧ v.status.err = 0 ∧ v.res0 = zext32 (~~~hsum h) ∧
      v.res1 = zext32 (~~~hsum h) ∧ v.inBuf = u.inBuf ∧ v.outBuf = u.outBuf := by
  have hcell (k : Nat) (hk : k < h.length) : u.cell b k = (storeChecksum h (~~~hsum h))[k]? := by
    simpa using hholds k (by rwa [length_storeChecksum])
  have hget (k : Nat) := getElem?_storeChecksum (h := h) (by omega) (~~~hsum h) k
  have hbyte0 : u.ihl b = b0.toNat % 16 := by
    rw [State.ihl, Memory.byteAt_of_get? ((hcell 0 (by omega)).trans ((hget 0).trans hfirst))]
  have hok : u.HeaderOk b := ⟨hcap, by omega, by omega, by omega⟩
  have hheader : Memory.bytes (u.buf b) (u.draws + 1) 0 (4 * u.ihl b) = storeChecksum h (~~~hsum h) :=
    bytes_of_holds hholds (by rw [length_storeChecksum, hlen, hbyte0]) _
  have hstored (d : Nat) : Memory.be16 (u.buf b) d 10 = ~~~hsum h := by
    rw [Memory.be16, Memory.byteAt_of_get? ((hcell 10 (by omega)).trans (hget 10)),
      Memory.byteAt_of_get? ((hcell 11 (by omega)).trans (hget 11)), word16_halves]
  refine ⟨_, (exec_csumValOf b u).trans (congrArg _ (csumVal_of_ok hok)), ?_⟩
  simp only [hheader, hstored, hsum_storeChecksum, or_true, decide_true, and_self]

/-- R71: where the header bytes stand as read, storing a checksum makes the buffer hold the header with it. -/
theorem holds_storeChecksum {s : State} {b : Buf} {h : List Byte} (hlen : 12 ≤ h.length)
    (hread : ∀ k < h.length, k ≠ 10 → k ≠ 11 → s.cell b k = h[k]?) (c : Half) :
    (s.writeBytes b 10 (bytes16 c)).Holds b 0 (storeChecksum h c) := by
  intro k hk
  rw [length_storeChecksum] at hk
  rw [Nat.zero_add, getElem?_storeChecksum hlen, cell_writeBytes]
  split
  next hin =>
    obtain rfl | rfl : k = 10 ∨ k = 11 := by
      have hlen2 : (bytes16 c).length = 2 := rfl
      omega
    · rfl
    · rfl
  next hout =>
    have hne : ¬ (10 ≤ k ∧ k < 12) := fun ⟨hle, hlt⟩ => hout ⟨rfl, hle, hlt⟩
    have h10 : k ≠ 10 := by omega
    have h11 : k ≠ 11 := by omega
    rw [if_neg h10, if_neg h11, hread k hk h10 h11]

/-- Settles O32: the buffer holds the header as read, with the complement of its sum stored. -/
theorem fixedHeaderValidates : Obligations.FixedHeaderValidates := by
  intro b s t u hok hwritten hexec hbuf hlen hcfg
  obtain ⟨hcap, hmin, hihl, hfits⟩ := id hok
  rw [exec_csumFixOf, csumFix_of_ok hok] at hexec
  obtain rfl := Host.Outcome.next.inj hexec
  have hlen' : u.lenOf b = s.lenOf b := hlen.trans (by cases b <;> rfl)
  have hcfg' : u.cfg = s.cfg := hcfg.trans (State.writeBytes_cfg _ _ _ _)
  have hread (k : Nat) (hk : k < 4 * s.ihl b) := Memory.getElem?_bytes (s.buf b) (s.draws + 1) 0 (4 * s.ihl b) k hk
  have hholds := holds_storeChecksum (s := s) (b := b) (headerOk_length hok (s.draws + 1) 0)
    (fun k hk h10 h11 => by
      rw [Memory.length_bytes] at hk
      rw [hread k hk, Nat.zero_add]
      exact get?_of_written (hwritten k hk h10 h11) _)
    (~~~hsum (Memory.bytes (s.buf b) (s.draws + 1) 0 (4 * s.ihl b)))
  have hihl' := ihl_of_written (hwritten 0 (by omega) (by decide) (by decide)) (s.draws + 1)
  refine csumVal_of_holds (hread 0 (by omega)) ?_ ?_ ?_ ?_ ?_
  · rw [Memory.length_bytes, hihl']
  · rw [Memory.length_bytes]
    omega
  · rw [Memory.length_bytes, hlen']
    exact hfits
  · rw [hlen', hcfg']
    exact hcap
  · exact holds_of_buf_eq (hbuf.trans (by cases b <;> rfl)) hholds

/-! ### HDR.FWD -/

/-- R72: the TTL decrement, as a number. -/
theorem decrementTtl_eq (t : Byte) : decrementTtl t = BitVec.ofNat 8 (if t.toNat = 0 then 255 else t.toNat - 1) := by
  have ht := t.isLt
  rw [decrementTtl]
  congr 1
  split <;> omega

/-- A byte as a register. -/
theorem setWidth_byte {n : Nat} (hn : n < 256) : (BitVec.ofNat 8 n).setWidth 32 = BitVec.ofNat 32 n := by
  apply BitVec.eq_of_toNat_eq
  rw [BitVec.toNat_setWidth, BitVec.toNat_ofNat, BitVec.toNat_ofNat, Nat.mod_eq_of_lt (hn : n < 2 ^ 8)]

/-- A byte as a test for 0. -/
theorem byte_beq_zero {n : Nat} (hn : n < 256) : (BitVec.ofNat 8 n == 0) = decide (n = 0) := by
  rw [beq_eq_decide]
  congr 1
  rw [← BitVec.toNat_inj, toNat_ofNat_of_lt hn]
  rfl

/-- R72: what HDR.FWD does to a datagram that passes the check. -/
theorem hdrFwd_of_ok {s : State} (hok : s.DatagramOk) :
    hdrFwd s =
      (let t := decrementTtl (Memory.byteAt s.inBuf (s.draws + 3 + s.totalLength) 8)
       let copy := (Memory.bytes s.inBuf (s.draws + 3) 0 s.totalLength).set 8 t
       let c := ~~~hsum (copy.take (4 * s.ihl .inB))
       { s.writeBytes .outB 0 (storeChecksum copy c) with
          outLen := BitVec.ofNat 16 s.totalLength, res0 := t.setWidth 32, res1 := zext32 c
          status := { s.ended 0 with ttlExp := t == 0 }, draws := s.draws + 3 + s.totalLength + 1 }) := by
  obtain ⟨hno, _⟩ | ⟨_, _, _, _, rfl, rfl, rfl, e⟩ := hdrFwd_cases s
  · exact absurd hok hno
  · exact e

/-- R72: a failed datagram check. -/
theorem hdrFwd_of_not_ok {s : State} (hno : ¬ s.DatagramOk) :
    ∃ d, hdrFwd s = { s with status := s.ended 3, draws := d } := by
  obtain ⟨_, d, e, _⟩ | ⟨hok, _⟩ := hdrFwd_cases s
  · exact ⟨d, e⟩
  · exact absurd hok hno

/-- R89: ICMP.ECHO on a datagram that fails the check, or whose ICMP message is shorter than 4 bytes. -/
theorem icmpEcho_of_malformed {s : State} (hno : ¬ s.DatagramOk ∨ s.totalLength - 4 * s.ihl .inB < 4) :
    ∃ d, icmpEcho s = { s with status := s.ended 3, draws := d } := by
  obtain ⟨_, d, e, _⟩ | ⟨hok, hm, _⟩ | ⟨hok, hm, _⟩ := icmpEcho_cases s
  · exact ⟨d, e⟩
  · exact absurd hno (not_or_intro (not_not_intro hok) (Nat.not_lt_of_le hm))
  · exact absurd hno (not_or_intro (not_not_intro hok) (Nat.not_lt_of_le hm))

/-- Settles O31: each command's own lemma for a failed check. -/
theorem failedChecksReportMalformed : Obligations.FailedChecksReportMalformed := by
  refine ⟨fun b s hno => ?_, fun s hno => ?_⟩ <;>
    simp only [List.forall_mem_cons, List.not_mem_nil, false_imp_iff, implies_true, and_true, exec_csumValOf,
      exec_csumFixOf, exec_hdrFwd, exec_icmpEcho, Host.Outcome.next.injEq]
  · exact ⟨csumVal_of_not_ok hno, csumFix_of_not_ok hno⟩
  · exact ⟨hdrFwd_of_not_ok hno, icmpEcho_of_malformed (.inl hno)⟩

/-- Settles O33: OUT holds the datagram with its TTL and checksum fields replaced. -/
theorem hdrFwdWritesTheDecrementedCopy : Obligations.HdrFwdWritesTheDecrementedCopy := by
  intro s hok len dgram ttl ttl'
  obtain ⟨hmin, _, hhdr, _, _⟩ := hok.bounds
  have hlen : len = s.totalLength := rfl
  have hdgram : dgram.length = len := Memory.length_bytes _ _ _ _
  have httl : ttl' < 256 := by
    have := (Memory.byteAt s.inBuf (s.draws + 3 + len) 8).isLt
    simp only [ttl']
    split <;> omega
  have hcopy : ((dgram.set 8 (BitVec.ofNat 8 ttl')).take (4 * s.ihl .inB)).length = 4 * s.ihl .inB := by
    rw [List.length_take, List.length_set, hdgram]
    omega
  have hexec := (exec_hdrFwd s).trans (congrArg _ (hdrFwd_of_ok hok))
  simp only [decrementTtl_eq] at hexec
  have hset : 12 ≤ (dgram.set 8 (BitVec.ofNat 8 ttl')).length := by
    rw [List.length_set]
    omega
  have hcell (c : Half) (k : Nat) (hk : k < len) := (cell_writeBytes_zero s .outB (k := k)
    (bs := storeChecksum (dgram.set 8 (BitVec.ofNat 8 ttl')) c) (by simpa [hdgram] using hk)).trans
    (getElem?_storeChecksum hset c k)
  have hrest (c : Half) (k : Nat) (hk : len ≤ k) : (s.writeBytes .outB 0
      (storeChecksum (dgram.set 8 (BitVec.ofNat 8 ttl')) c)).cell .outB k = s.cell .outB k := by
    refine cell_writeBytes_of_not ?_
    rw [length_storeChecksum, List.length_set]
    omega
  refine ⟨hsum ((dgram.set 8 (BitVec.ofNat 8 ttl')).take (4 * s.ihl .inB)), _, hexec, isOcSum_hsum (by omega), ?_,
    ?_, hcell _ 10 (by omega), hcell _ 11 (by omega), fun a ha h8 h10 h11 => ?_, fun a ha => ?_⟩
  · simp only [State.writeBytes_outB]
    rw [setWidth_byte httl, byte_beq_zero httl]
    rfl
  · refine (hcell _ 8 (by omega)).trans ?_
    rw [if_neg (by decide), if_neg (by decide), List.getElem?_set_self (by omega)]
  · refine (hcell _ a ha).trans ?_
    rw [if_neg h10, if_neg h11, List.getElem?_set_ne h8.symm]
  · exact hrest _ a ha

/-- R72: HDR.FWD ends with code 0 only where the datagram check passes. -/
theorem datagramOk_of_hdrFwd_err {s : State} (h : (hdrFwd s).status.err = 0) : s.DatagramOk := by
  by_contra hno
  obtain ⟨d, e⟩ := hdrFwd_of_not_ok hno
  rw [e] at h
  have hcode : (3 : BitVec 4) = 0 := h
  exact absurd hcode (by decide)

/-- Settles O34: OUT holds the header of the copy, with the complement of its own sum stored. -/
theorem forwardedCopyValidates : Obligations.ForwardedCopyValidates := by
  intro s t u hwritten hexec herr hbuf hlen hcfg
  rw [exec_hdrFwd] at hexec
  obtain rfl := Host.Outcome.next.inj hexec
  have hok := datagramOk_of_hdrFwd_err herr
  obtain ⟨hmin, _, hhdr, hcap, hlt⟩ := hok.bounds
  rw [hdrFwd_of_ok hok] at *
  have hlen' : u.lenOf .outB = s.totalLength := (congrArg BitVec.toNat hlen).trans (toNat_ofNat_of_lt hlt)
  have hcfg' : u.cfg = s.cfg := hcfg
  have hheader := (holds_of_buf_eq (b := .outB) hbuf (holds_writeBytes s .outB 0 _)).take (4 * s.ihl .inB)
  rw [take_storeChecksum] at hheader
  have hlength (t : Byte) : (((Memory.bytes s.inBuf (s.draws + 3) 0 s.totalLength).set 8 t).take
      (4 * s.ihl .inB)).length = 4 * s.ihl .inB := by
    rw [List.length_take, List.length_set, Memory.length_bytes, min_eq_left hhdr]
  refine Exists.imp (fun v hv => ?_) (csumVal_of_holds (u := u) (b := .outB)
    (b0 := Memory.byteAt s.inBuf (s.draws + 3) 0) ?_ ?_ ?_ ?_ ?_ hheader)
  · obtain ⟨hval, hcsum, herr', hres0, hres1, _⟩ := hv
    exact ⟨hval, hcsum, herr', hres0, hres1⟩
  · rw [List.getElem?_take_of_lt (by omega), List.getElem?_set_ne (by decide)]
    exact Memory.getElem?_bytes s.inBuf _ 0 _ 0 (by omega)
  · rw [hlength, ihl_of_written hwritten (s.draws + 3)]
    rfl
  · rw [hlength]
    exact hmin
  · rw [hlength, hlen']
    exact hhdr
  · rw [hlen', hcfg']
    exact hcap

end Sys2Proof.Machine
end

section
/-!
PROOFS of the family 41_route_lookup.md, further: LPM dst (R78), that a lookup depends on the table and the key alone
(R80), and the length of a contiguous mask (R75).
-/

namespace Sys2Proof.Machine

/-! ### LPM dst -/

/-- R78: with IN_LEN in range LPM dst is the lookup of bytes 16 to 19 of IN. -/
theorem lpmDst_of_le {s : State} (hmin : 20 ≤ s.inLen.toNat) (hcap : s.inLen.toNat ≤ s.cfg.bufBytes) :
    lpmDst s = lpmLookup (Memory.be32 s.inBuf s.draws 16) { s with draws := s.draws + 4 } := by
  obtain ⟨hout, _⟩ | ⟨_, _, e⟩ := lpmDst_cases s
  · omega
  · exact e

/-- R78: IN_LEN out of range reports E_MALFORMED. -/
theorem lpmDst_of_lt {s : State} (hout : s.inLen.toNat < 20 ∨ s.cfg.bufBytes < s.inLen.toNat) :
    lpmDst s = s.raise .malformed := by
  obtain ⟨_, e⟩ | ⟨_, _, _⟩ := lpmDst_cases s
  · exact e
  · omega

/-- Settles O36: the lookup of the key in IN, on a hit and on a miss. -/
theorem lpmDstFindsTheLongestPrefix : Obligations.LpmDstFindsTheLongestPrefix := by
  intro s
  rw [exec_lpmDst]
  refine ⟨fun hmin hcap => ⟨_, toNat_word32 _ _ _ _, fun i hbest => ?_, fun hnone => ?_⟩,
    fun hout => congrArg _ (lpmDst_of_lt hout)⟩ <;> rw [lpmDst_of_le hmin hcap]
  · exact congrArg _ (lpmLookup_of_bestRoute (s := { s with draws := s.draws + 4 }) hbest)
  · exact congrArg _ (lpmLookup_of_no_match (s := { s with draws := s.draws + 4 }) hnone)

/-! ### What a lookup depends on -/

/-- R74, R80: equal tables match the same keys. -/
theorem routeMatches_congr {s s' : State} (hn : s.cfg.nRt = s'.cfg.nRt)
    (hentry : ∀ j < s.cfg.nRt, s.rtEntry j = s'.rtEntry j) (k : Word) (i : Nat) :
    s.RouteMatches k i ↔ s'.RouteMatches k i := by
  rw [routeMatches_iff, routeMatches_iff, ← hn]
  exact and_congr_right fun hi => by rw [hentry i hi]

/-- R76, R80: equal tables have the same winner. -/
theorem State.BestRoute.congr {s s' : State} (hn : s.cfg.nRt = s'.cfg.nRt)
    (hentry : ∀ j < s.cfg.nRt, s.rtEntry j = s'.rtEntry j) {k : Word} {i : Nat} (h : s.BestRoute k i) :
    s'.BestRoute k i := by
  obtain ⟨hi, hbest⟩ := h
  have hlength (j : Nat) (hj : s.RouteMatches k j) : s.routeLength j = s'.routeLength j := by
    rw [State.routeLength, hentry j hj.1]
  refine ⟨(routeMatches_congr hn hentry k i).mp hi, fun j hj => ?_⟩
  have hj' := (routeMatches_congr hn hentry k j).mpr hj
  rw [← hlength i hi, ← hlength j hj']
  exact hbest j hj'

/-- R80: lookups of one key in equal tables report the same. -/
theorem lpmLookup_congr {s s' : State} (hn : s.cfg.nRt = s'.cfg.nRt)
    (hentry : ∀ j < s.cfg.nRt, s.rtEntry j = s'.rtEntry j) (hstatus : s.status = s'.status) (k : Word) :
    (lpmLookup k s).res0 = (lpmLookup k s').res0 ∧ (lpmLookup k s).res1 = (lpmLookup k s').res1 ∧
      (lpmLookup k s).res2 = (lpmLookup k s').res2 ∧ (lpmLookup k s).status = (lpmLookup k s').status := by
  have hended : s.ended 0 = s'.ended 0 := congrArg (fun st : Status => { st with busy := false, err := 0 }) hstatus
  by_cases hmatch : ∃ i, s.RouteMatches k i
  · obtain ⟨i, hbest⟩ := exists_bestRoute hmatch
    rw [lpmLookup_of_bestRoute hbest, lpmLookup_of_bestRoute (hbest.congr hn hentry), ← hentry i hbest.1.1]
    exact ⟨rfl, rfl, rfl, congrArg (fun st : Status => { st with lpmHit := true }) hended⟩
  · have hnone := not_exists.mp hmatch
    rw [lpmLookup_of_no_match hnone,
      lpmLookup_of_no_match fun i => mt (routeMatches_congr hn hentry k i).mpr (hnone i)]
    exact ⟨rfl, rfl, rfl, hended⟩

/-- R78: a command that looks up a key is the lookup of that key, after the reads of the key. -/
theorem exec_of_looksUp {s : State} {i : Instr} {k : Word} (h : s.LooksUp i k) :
    ∃ d, exec i s = .next (lpmLookup k { s with draws := d }) := by
  obtain ⟨rfl, rfl⟩ | ⟨rfl, hmin, hcap, rfl⟩ := h
  · exact ⟨s.draws, rfl⟩
  · exact ⟨s.draws + 4, congrArg _ (lpmDst_of_le hmin hcap)⟩

/-- Settles O38: both commands are lookups of the key, and every command leaves the tables. -/
theorem lpmDependsOnlyOnTableAndKey : Obligations.LpmDependsOnlyOnTableAndKey := by
  intro i i' k s s' t t' hlooks hlooks' hn hentry hstatus hexec hexec'
  obtain ⟨_, _, _, _, _, _, hrt, _⟩ := (effect_of_exec hexec).frame
  obtain ⟨_, _, _, _, _, _, hrt', _⟩ := (effect_of_exec hexec').frame
  obtain ⟨d, hd⟩ := exec_of_looksUp hlooks
  obtain ⟨d', hd'⟩ := exec_of_looksUp hlooks'
  obtain rfl := Host.Outcome.next.inj (hd.symm.trans hexec)
  obtain rfl := Host.Outcome.next.inj (hd'.symm.trans hexec')
  obtain ⟨hres0, hres1, hres2, hst⟩ :=
    lpmLookup_congr (s := { s with draws := d }) (s' := { s' with draws := d' }) hn hentry hstatus k
  exact ⟨hres0, hres1, hres2, hst, hrt, hrt'⟩

/-! ### Contiguous masks -/

/-- R75: the mask of `n` leading ones has ones exactly in its `n` high bits. -/
theorem getLsbD_contiguousMask (n : Nat) {i : Nat} (hi : i < 32) :
    (BitVec.ofNat 32 (2 ^ 32 - 2 ^ (32 - n))).getLsbD i = decide (32 - n ≤ i) := by
  have hpos : 2 ^ (32 - n) = 2 ^ (32 - n) - 1 + 1 := (Nat.sub_add_cancel Nat.one_le_two_pow).symm
  have hle : 2 ^ (32 - n) ≤ 2 ^ 32 := Nat.pow_le_pow_right (by decide) (by omega)
  rw [BitVec.getLsbD_ofNat, hpos, Nat.testBit_two_pow_sub_succ (by omega), Nat.testBit_two_pow_sub_one,
    decide_eq_true hi, Bool.true_and, ← decide_not]
  simp only [Nat.not_lt, Bool.true_and]

/-- The numbers from `a` on among the first `m`. -/
theorem countP_range_ge (a m : Nat) : (List.range m).countP (fun i => decide (a ≤ i)) = m - a := by
  induction m with
  | zero => exact (Nat.zero_sub a).symm
  | succ m ih =>
    rw [List.range_succ, List.countP_append, ih, List.countP_singleton]
    simp only [decide_eq_true_eq]
    split <;> omega

/-- R75: the mask of `n` leading ones has `n` ones. -/
theorem popcount_contiguousMask {n : Nat} (hn : n ≤ 32) : popcount (BitVec.ofNat 32 (2 ^ 32 - 2 ^ (32 - n))) = n := by
  have hbits : ∀ i ∈ List.range 32, (BitVec.ofNat 32 (2 ^ 32 - 2 ^ (32 - n))).getLsbD i = true ↔
      decide (32 - n ≤ i) = true := fun i hi => by rw [getLsbD_contiguousMask n (List.mem_range.mp hi)]
  rw [popcount, List.countP_congr hbits, countP_range_ge]
  omega

/-- Settles O37: the ones of a contiguous mask, and that `2 ^ (32 - n)` falls as `n` rises. -/
theorem contiguousMaskLengthIsPrefixLength : Obligations.ContiguousMaskLengthIsPrefixLength := by
  intro n hn m hm
  refine ⟨popcount_contiguousMask hn, ?_⟩
  have hpos (k : Nat) : 0 < 2 ^ k := Nat.two_pow_pos k
  have hn' := hpos (32 - n)
  have hm' := hpos (32 - m)
  rw [toNat_ofNat_of_lt (by omega), toNat_ofNat_of_lt (by omega)]
  have hlt : 2 ^ (32 - m) < 2 ^ (32 - n) ↔ n < m := by
    rw [Nat.pow_lt_pow_iff_right (by decide)]
    omega
  have hle : 2 ^ (32 - n) ≤ 2 ^ 32 := Nat.pow_le_pow_right (by decide) (by omega)
  omega

end Sys2Proof.Machine
end

section
/-!
PROOFS of the family 42_icmp_synth.md: ICMP.ERR (R81 to R87) and ICMP.ECHO (R88, R89). `writeReply_spec` says what a
reply leaves, byte for byte; what either command does when it completes is read off it.
-/

namespace Sys2Proof.Machine

/-! ### Replies -/

/-- R81, R82: the two checksums of a reply complement the sums of its header and of its ICMP message. -/
theorem replyChecksums (t : Half) (src dst : Word) (ty co : Byte) (rest : List Byte) :
    ReplyChecksums t (replyHeaderChecksum t src dst) src dst ty co (icmpChecksum ty co rest) rest := by
  rw [ReplyChecksums, replyHeaderChecksum, icmpChecksum, complement16, complement16, BitVec.not_not, BitVec.not_not]
  exact ⟨isOcSum_ocsum 0 (replyHeader t src dst 0), isOcSum_ocsum 0 (icmpMessage ty co 0 rest)⟩

/-- R81, R82, R86, R89: what a reply of `t` bytes leaves, byte for byte. -/
theorem writeReply_spec (s : State) (d : Nat) {t : Nat} {rest : List Byte} (hlen : 24 + rest.length = t)
    (src dst : Word) (ty co : Byte) :
    ∃ (ipc ic : Half) (u : State), writeReply { s with draws := d } t src dst ty co rest = u ∧
      ReplyChecksums (BitVec.ofNat 16 t) ipc src dst ty co ic rest ∧
      u.Holds .outB 0 (replyBytes (BitVec.ofNat 16 t) ipc src dst ty co ic rest) ∧
      (∀ a, t ≤ a → u.cell .outB a = s.cell .outB a) ∧
      u = { s with
        outBuf := u.outBuf, outLen := BitVec.ofNat 16 t, res0 := zext32 ipc, res1 := zext32 ic, status := s.ended 0
        draws := d } := by
  obtain ⟨ipc, ic, hipc, hic, h⟩ := writeReply_eq { s with draws := d } t src dst ty co rest
  refine ⟨ipc, ic, _, h, ?_, holds_writeBytes s .outB 0 _, fun a ha => ?_, by dsimp only⟩
  · rw [hipc, hic]
    exact replyChecksums _ _ _ _ _ _
  · rw [cell_outB, Memory.get?_setBytes, length_replyBytes]
    exact if_neg (by omega)

/-- R82: an ICMP message with the complement of its sum stored sums to 0xFFFF. -/
theorem ocsum_icmpMessage (ty co : Byte) (rest : List Byte) :
    ocsum 0 (icmpMessage ty co (icmpChecksum ty co rest) rest) = 0xFFFF := by
  rw [icmpChecksum, complement16]
  have hwords (c : Half) : (wordsOf (icmpMessage ty co c rest)).sum =
      ty.toNat * 256 + co.toNat + (c.toNat + (wordsOf rest).sum) := by
    rw [← toNat_halves c]
    rfl
  refine ((isOcSum_ocsum 0 _).unique ((isOcSum_ocsum 0 (icmpMessage ty co 0 rest)).concat _) ?_).trans
    (ocadd_not_self _)
  rw [List.sum_append, List.sum_singleton, hwords, hwords]
  simp only [BitVec.ofNat_eq_ofNat, BitVec.toNat_ofNat]
  omega

/-! ### ICMP.ERR -/

theorem argIdx_eq (s : State) : s.argIdx = s.arg0.toNat % 2 ^ 8 := by
  simp [State.argIdx]

/-- R86: the reply of ICMP.ERR. -/
theorem icmpErr_of_ok {ty co : Byte} {s : State} (hidx : s.argIdx < s.cfg.nIf) (hv : (s.ifEntry s.argIdx).v = true)
    (hok : s.DatagramOk) :
    icmpErr ty co s =
      (let h := 4 * s.ihl .inB
       let q := min 8 (s.totalLength - h)
       writeReply { s with draws := s.draws + 7 + h + q } (28 + h + q) (s.ifEntry s.argIdx).addr
        (Memory.be32 s.inBuf (s.draws + 3) 12) ty co
        ([0, 0, 0, 0] ++ Memory.bytes s.inBuf (s.draws + 7) 0 h ++ Memory.bytes s.inBuf (s.draws + 7 + h) h q)) := by
  obtain ⟨hout, _⟩ | ⟨_, hno, _⟩ | ⟨_, _, hno, _⟩ | ⟨_, _, _, _, _, rfl, rfl, e⟩ := icmpErr_cases ty co s
  · omega
  · exact absurd (hv.symm.trans hno) nofun
  · exact absurd hok hno
  · exact e

/-- R94: an index outside the table. -/
theorem icmpErr_of_range {ty co : Byte} {s : State} (hout : s.cfg.nIf ≤ s.argIdx) :
    icmpErr ty co s = s.raise .range := by
  obtain ⟨_, e⟩ | ⟨hidx, _⟩ | ⟨hidx, _⟩ | ⟨hidx, _⟩ := icmpErr_cases ty co s
  · exact e
  all_goals omega

/-- R94: an invalid entry. -/
theorem icmpErr_of_noIf {ty co : Byte} {s : State} (hidx : s.argIdx < s.cfg.nIf)
    (hv : (s.ifEntry s.argIdx).v = false) : icmpErr ty co s = s.raise .noIf := by
  obtain ⟨hout, _⟩ | ⟨_, _, e⟩ | ⟨_, hyes, _⟩ | ⟨_, hyes, _⟩ := icmpErr_cases ty co s
  · omega
  · exact e
  all_goals exact absurd (hv.symm.trans hyes) nofun

/-- R94: a failed datagram check. -/
theorem icmpErr_of_not_ok {ty co : Byte} {s : State} (hidx : s.argIdx < s.cfg.nIf)
    (hv : (s.ifEntry s.argIdx).v = true) (hno : ¬ s.DatagramOk) :
    ∃ d, icmpErr ty co s = { s with status := s.ended 3, draws := d } := by
  obtain ⟨hout, _⟩ | ⟨_, hinvalid, _⟩ | ⟨_, _, _, d, e, _⟩ | ⟨_, _, hok, _⟩ := icmpErr_cases ty co s
  · omega
  · exact absurd (hv.symm.trans hinvalid) nofun
  · exact ⟨d, e⟩
  · exact absurd hok hno

/-- R91: an error is not code 0. -/
theorem raise_err_ne_zero (s : State) (e : ErrCode) : (s.raise e).status.err ≠ 0 := by
  have hcode : e.code ≠ 0 := by cases e <;> decide
  exact hcode

/-- R86: ICMP.ERR ends with code 0 only for a valid entry and a datagram that passes the check. -/
theorem icmpErr_ok_of_err {ty co : Byte} {s : State} (h : (icmpErr ty co s).status.err = 0) :
    s.argIdx < s.cfg.nIf ∧ (s.ifEntry s.argIdx).v = true ∧ s.DatagramOk := by
  obtain ⟨_, e⟩ | ⟨_, _, e⟩ | ⟨_, _, _, _, e, _⟩ | ⟨hidx, hv, hok, _⟩ := icmpErr_cases ty co s
  · exact absurd (e ▸ h) (raise_err_ne_zero _ _)
  · exact absurd (e ▸ h) (raise_err_ne_zero _ _)
  · exact absurd (e ▸ h) (raise_err_ne_zero _ _)
  · exact ⟨hidx, hv, hok⟩

/-- The reply of ICMP.ERR is 28 bytes and the quote long. -/
theorem length_quote (m : Memory) (d h q : Nat) :
    24 + ([0, 0, 0, 0] ++ Memory.bytes m d 0 h ++ Memory.bytes m (d + h) h q).length = 28 + h + q := by
  rw [List.length_append, List.length_append, Memory.length_bytes, Memory.length_bytes]
  simp only [List.length_cons, List.length_nil]
  omega

/-- Settles O39, by the reply of ICMP.ERR and what a reply leaves. -/
theorem icmpErrWritesTheQuotingReply : Obligations.IcmpErrWritesTheQuotingReply := by
  intro s p hp
  rw [← argIdx_eq]
  intro idx hidx hv hok h q len src dst rest
  obtain ⟨ipc, ic, t, ht, hreply⟩ := writeReply_spec s (s.draws + 7 + h + q) (length_quote s.inBuf (s.draws + 7) h q)
    src dst p.2.1 p.2.2
  exact ⟨ipc, ic, t, (exec_icmpErr hp s).trans (congrArg _ ((icmpErr_of_ok hidx hv hok).trans ht)), hreply⟩

/-- Settles O40, by the command's own lemma for each error. -/
theorem icmpErrErrorsInOrder : Obligations.IcmpErrErrorsInOrder := by
  intro s i hi
  obtain ⟨p, hp, rfl⟩ := List.mem_map.mp hi
  rw [← argIdx_eq, exec_icmpErr hp]
  refine ⟨fun hout => congrArg _ (icmpErr_of_range hout), fun hidx hv => congrArg _ (icmpErr_of_noIf hidx hv),
    fun hidx hv hno => ?_⟩
  simpa using icmpErr_of_not_ok hidx hv hno

/-- Settles O41: a header of 20 to 60 bytes and at most 8 payload bytes behind 28 bytes. -/
theorem errorReplyLengthIsBounded : Obligations.ErrorReplyLengthIsBounded := by
  intro s t hlegal i hi hexec herr
  obtain ⟨p, hp, rfl⟩ := List.mem_map.mp hi
  rw [exec_icmpErr hp] at hexec
  obtain rfl := Host.Outcome.next.inj hexec
  obtain ⟨hidx, hv, hok⟩ := icmpErr_ok_of_err herr
  obtain ⟨hmin, hmax, _⟩ := hok.bounds
  obtain ⟨_, hbuf, _⟩ := (params_legal_iff s.cfg).mp hlegal
  obtain ⟨_, _, _, ht, _, _, _, hframe⟩ := writeReply_spec s _ (length_quote s.inBuf (s.draws + 7) (4 * s.ihl .inB)
    (min 8 (s.totalLength - 4 * s.ihl .inB))) (s.ifEntry s.argIdx).addr (Memory.be32 s.inBuf (s.draws + 3) 12) p.2.1
    p.2.2
  rw [icmpErr_of_ok hidx hv hok, ht, hframe, toNat_ofNat_of_lt (by omega)]
  omega

/-! ### The quote -/

/-- R83: the quote stands from byte 28 of the reply on. -/
theorem getElem?_quote (t ipc : Half) (src dst : Word) (ty co : Byte) (ic : Half) (hdr pre : List Byte) (k : Nat) :
    (replyBytes t ipc src dst ty co ic ([0, 0, 0, 0] ++ hdr ++ pre))[k + 28]? = (hdr ++ pre)[k]? := rfl

/-- Two ranges read one after the other are one range (R31). -/
theorem bytes_append (m : Memory) (d a n k : Nat) :
    Memory.bytes m d a n ++ Memory.bytes m (d + n) (a + n) k = Memory.bytes m d a (n + k) := by
  induction n generalizing d a with
  | zero => simp [Memory.bytes]
  | succ n ih =>
    rw [Nat.succ_add, Memory.bytes, Memory.bytes, List.cons_append, ← ih (d + 1) (a + 1)]
    congr 3 <;> omega

/-- R60, R66: where the bytes they are read from are written, the IHL and totalLength of the check depend on the buffer
alone. -/
theorem check_congr {s u : State} (hbuf : u.inBuf = s.inBuf) (h0 : s.cell .inB 0 ≠ none) (h2 : s.cell .inB 2 ≠ none)
    (h3 : s.cell .inB 3 ≠ none) : u.ihl .inB = s.ihl .inB ∧ u.totalLength = s.totalLength := by
  have hread {a : Nat} (h : s.cell .inB a ≠ none) (d d' : Nat) : 
      Memory.byteAt u.inBuf d a = Memory.byteAt s.inBuf d' a := by
    rw [hbuf]
    exact Memory.byteAt_of_get? (get?_of_written h d') d
  simp only [State.ihl, State.totalLength, State.buf_inB, hread h0 u.draws s.draws,
    hread h2 (u.draws + 1) (s.draws + 1), hread h3 (u.draws + 2) (s.draws + 2), and_self]

/-- Settles O42: HDR.FWD leaves IN, so the later ICMP.ERR reads the same header and the same first
payload bytes. -/
theorem quoteShowsTheHeaderBeforeTheDecrement : Obligations.QuoteShowsTheHeaderBeforeTheDecrement := by
  intro s t u v hok h q hwritten hfwd hbuf hlen hcfg i hi hexec herr
  obtain ⟨p, hp, rfl⟩ := List.mem_map.mp hi
  obtain ⟨hmin, _⟩ := hok.bounds
  have hin : t.inBuf = s.inBuf := by
    rw [exec_hdrFwd, hdrFwd_of_ok hok] at hfwd
    obtain rfl := Host.Outcome.next.inj hfwd
    rfl
  obtain ⟨hihl, htotal⟩ := check_congr (hbuf.trans hin) (hwritten 0 (by omega)) (hwritten 2 (by omega))
    (hwritten 3 (by omega))
  rw [exec_icmpErr hp] at hexec
  obtain rfl := Host.Outcome.next.inj hexec
  obtain ⟨hidx, hv, huok⟩ := icmpErr_ok_of_err herr
  rw [icmpErr_of_ok hidx hv huok]
  simp only [hihl, htotal]
  obtain ⟨ipc, ic, w, hw, _, hholds, _, hframe⟩ := writeReply_spec u (u.draws + 7 + h + q)
    (length_quote u.inBuf (u.draws + 7) h q) (u.ifEntry u.argIdx).addr (Memory.be32 u.inBuf (u.draws + 3) 12) p.2.1
    p.2.2
  rw [hw]
  refine ⟨by rw [hframe], fun k hk => ?_⟩
  have hbyte := hholds (k + 28) (by rw [length_replyBytes, length_quote]; omega)
  have hquote := bytes_append u.inBuf (u.draws + 7) 0 h q
  rw [Nat.zero_add] at hquote hbyte
  rw [getElem?_quote, hquote, Memory.getElem?_bytes _ _ _ _ _ hk, hbuf.trans hin, Nat.zero_add] at hbyte
  rw [Nat.add_comm, hbyte]
  exact (get?_of_written (hwritten k hk) _).symm

/-! ### ICMP.ECHO -/

/-- R89: the reply of ICMP.ECHO. -/
theorem icmpEcho_of_ok {s : State} (hok : s.DatagramOk) (hm : 4 ≤ s.totalLength - 4 * s.ihl .inB)
    (hproto : Memory.byteAt s.inBuf (s.draws + 3) 9 = 1)
    (hty : Memory.byteAt s.inBuf (s.draws + 4) (4 * s.ihl .inB) = 8) :
    icmpEcho s =
      (let h := 4 * s.ihl .inB
       let m := s.totalLength - h
       writeReply { s with draws := s.draws + 13 + (m - 4) } (20 + m) (Memory.be32 s.inBuf (s.draws + 5) 16)
        (Memory.be32 s.inBuf (s.draws + 9) 12) 0 0 (Memory.bytes s.inBuf (s.draws + 13) (h + 4) (m - 4))) := by
  obtain ⟨hno | hshort, _⟩ | ⟨_, _, hno | hno, _⟩ | ⟨_, _, _, _, _, _, rfl, rfl, e⟩ := icmpEcho_cases s
  · exact absurd hok hno
  · omega
  · exact absurd hproto hno
  · exact absurd hty hno
  · exact e

/-- R89, R94: a datagram that is no echo request. -/
theorem icmpEcho_of_not_echo {s : State} (hok : s.DatagramOk) (hm : 4 ≤ s.totalLength - 4 * s.ihl .inB)
    (hno : Memory.byteAt s.inBuf (s.draws + 3) 9 ≠ 1 ∨ Memory.byteAt s.inBuf (s.draws + 4) (4 * s.ihl .inB) ≠ 8) :
    icmpEcho s = { s with status := s.ended 4, draws := s.draws + 5 } := by
  obtain ⟨hfail | hshort, _⟩ | ⟨_, _, _, e⟩ | ⟨_, _, hproto, hty, _⟩ := icmpEcho_cases s
  · exact absurd hok hfail
  · omega
  · exact e
  · exact absurd hno (not_or_intro (not_not_intro hproto) (not_not_intro hty))

/-- R89: ICMP.ECHO ends with code 0 only for an echo request. -/
theorem icmpEcho_ok_of_err {s : State} (h : (icmpEcho s).status.err = 0) :
    s.DatagramOk ∧ 4 ≤ s.totalLength - 4 * s.ihl .inB ∧ Memory.byteAt s.inBuf (s.draws + 3) 9 = 1 ∧
      Memory.byteAt s.inBuf (s.draws + 4) (4 * s.ihl .inB) = 8 := by
  obtain ⟨_, _, e, _⟩ | ⟨_, _, _, e⟩ | ⟨hok, hm, hproto, hty, _⟩ := icmpEcho_cases s
  · exact absurd (e ▸ h) (raise_err_ne_zero _ _)
  · exact absurd (e ▸ h) (raise_err_ne_zero _ _)
  · exact ⟨hok, hm, hproto, hty⟩

/-- The reply of ICMP.ECHO is its header and the request's ICMP message long. -/
theorem length_echo (m : Memory) (d a : Nat) {n : Nat} (hn : 4 ≤ n) :
    24 + (Memory.bytes m d a (n - 4)).length = 20 + n := by
  rw [Memory.length_bytes]
  omega

/-- Settles O43, by the reply of ICMP.ECHO and what a reply leaves. -/
theorem icmpEchoWritesTheReply : Obligations.IcmpEchoWritesTheReply := by
  intro s hok h m hm hproto hty len src dst rest
  obtain ⟨ipc, ic, t, ht, hreply⟩ := writeReply_spec s (s.draws + 13 + (m - 4))
    (length_echo s.inBuf (s.draws + 13) (h + 4) hm) src dst 0 0
  exact ⟨ipc, ic, t, (exec_icmpEcho s).trans (congrArg _ ((icmpEcho_of_ok hok hm hproto hty).trans ht)), hreply⟩

/-- Settles O44, by the command's own lemma for each error. -/
theorem icmpEchoErrorsInOrder : Obligations.IcmpEchoErrorsInOrder := by
  intro s hok
  rw [exec_icmpEcho]
  refine ⟨fun hshort => ?_, fun hm hno => ⟨_, congrArg _ (icmpEcho_of_not_echo hok hm hno)⟩⟩
  obtain ⟨d, e⟩ := icmpEcho_of_malformed (.inr hshort)
  exact ⟨d, congrArg _ e⟩

/-! ### The checksums of a reply -/

/-- The last of the held bytes. -/
theorem State.Holds.drop {s : State} {b : Buf} {a : Nat} {bs : List Byte} (h : s.Holds b a bs) (n : Nat) :
    s.Holds b (a + n) (bs.drop n) := by
  intro k hk
  rw [List.length_drop] at hk
  rw [List.getElem?_drop, Nat.add_assoc, h (n + k) (by omega)]

/-- R86, R89: the commands that reply. -/
theorem mem_icmpErrTable_or_eq_icmpEcho {i : Instr}
    (hi : i ∈ [Instr.icmpErrTx, .icmpErrNet, .icmpErrPort, .icmpEcho]) :
    i ∈ icmpErrTable.map Prod.fst ∨ i = .icmpEcho := by
  revert i
  decide

/-- R81, R86, R89: a command that replies leaves a reply, of 24 bytes at least, that fits OUT. -/
theorem exec_reply {i : Instr} {s t : State} (hi : i ∈ [Instr.icmpErrTx, .icmpErrNet, .icmpErrPort, .icmpEcho])
    (hlegal : s.cfg.legal = true) (hexec : exec i s = .next t) (herr : t.status.err = 0) :
    ∃ n src dst ty co rest d, writeReply { s with draws := d } n src dst ty co rest = t ∧ 24 + rest.length = n ∧
      n < 2 ^ 16 ∧ n ≤ s.cfg.bufBytes := by
  obtain ⟨_, hbuf, _⟩ := (params_legal_iff s.cfg).mp hlegal
  obtain hi | rfl := mem_icmpErrTable_or_eq_icmpEcho hi
  · obtain ⟨p, hp, rfl⟩ := List.mem_map.mp hi
    rw [exec_icmpErr hp] at hexec
    obtain rfl := Host.Outcome.next.inj hexec
    obtain ⟨hidx, hv, hok⟩ := icmpErr_ok_of_err herr
    obtain ⟨_, hmax, _⟩ := hok.bounds
    exact ⟨_, _, _, _, _, _, _, (icmpErr_of_ok hidx hv hok).symm, length_quote _ _ _ _, by omega, by omega⟩
  · obtain rfl := Host.Outcome.next.inj hexec
    obtain ⟨hok, hm, hproto, hty⟩ := icmpEcho_ok_of_err herr
    obtain ⟨hmin, _, _, hcap, hlt⟩ := hok.bounds
    exact ⟨_, _, _, _, _, _, _, (icmpEcho_of_ok hok hm hproto hty).symm, length_echo _ _ _ hm, by omega, by omega⟩

/-- R62, R63: the value whose complement is the sum of a byte sequence. -/
theorem eq_not_ocsum {c : Half} {bs : List Byte} (h : IsOcSum (~~~c) 0 (wordsOf bs)) : c = ~~~ocsum 0 bs := by
  rw [← h.unique (isOcSum_ocsum 0 bs) rfl, BitVec.not_not]

/-- Settles O45: OUT holds the reply's header with the complement of its sum, and its ICMP message likewise. -/
theorem repliesCarryValidChecksums : Obligations.RepliesCarryValidChecksums := by
  intro i s t u hi hlegal hexec herr hbuf hlen hcfg
  obtain ⟨n, src, dst, ty, co, rest, d, hreply, hn, hlt, hcap⟩ := exec_reply hi hlegal hexec herr
  obtain ⟨ipc, ic, w, hw, ⟨hhdr, hmsg⟩, hholds, _, hframe⟩ := writeReply_spec s d hn src dst ty co
  obtain rfl : w = t := hw.symm.trans hreply
  have hipc : ipc = ~~~hsum (replyHeader (BitVec.ofNat 16 n) src dst 0) := eq_not_ocsum hhdr
  have hic : ic = icmpChecksum ty co rest := eq_not_ocsum hmsg
  have hres0 : w.res0 = zext32 ipc := by rw [hframe]
  have houtLen : w.outLen.toNat = n := by
    rw [hframe]
    exact toNat_ofNat_of_lt hlt
  have hlenOf : u.lenOf .outB = n := (congrArg BitVec.toNat hlen).trans houtLen
  have hcfg' : u.cfg = s.cfg := hcfg.trans (by rw [hframe])
  have hout := holds_of_buf_eq (b := .outB) hbuf hholds
  refine ⟨?_, fun hacc harg0 harg1 => ?_⟩
  · have hheader : u.Holds .outB 0 (storeChecksum (replyHeader (BitVec.ofNat 16 n) src dst 0)
        (~~~hsum (replyHeader (BitVec.ofNat 16 n) src dst 0))) := hipc ▸ hout.take 20
    obtain ⟨v, hval, hcsum, herr', h0, h1, _⟩ := csumVal_of_holds (b := .outB) (b0 := 0x45)
      (h := replyHeader (BitVec.ofNat 16 n) src dst 0) rfl rfl (Nat.le_refl 20)
      (show 20 ≤ u.lenOf .outB by omega) (by rw [hlenOf, hcfg']; exact hcap) hheader
    rw [hres0, hipc]
    exact ⟨v, hval, hcsum, herr', h0, h1⟩
  · have hmessage : u.Holds .outB 20 (icmpMessage ty co ic rest) := hout.drop 20
    have hoff : u.argOff = 20 := by
      rw [argOff_eq, harg0]
      rfl
    have hcount : u.argCount = n - 20 := by
      rw [argCount_eq, harg1, houtLen, BitVec.toNat_ofNat]
      omega
    have hlength : (icmpMessage ty co ic rest).length = n - 20 := by
      simp only [icmpMessage, bytes16, List.length_append, List.length_cons, List.length_nil]
      omega
    have hbytes := bytes_of_holds hmessage hlength u.draws
    have hrange : u.argOff + u.argCount ≤ u.cfg.bufBytes := by
      rw [hoff, hcount, hcfg']
      omega
    refine ⟨_, congrArg Host.Outcome.next (csumAdd_of_le (b := .outB) hrange), ?_⟩
    simp only [hoff, hcount, hbytes, hacc, hic, ocsum_icmpMessage, true_and, and_true]
    decide

end Sys2Proof.Machine
end
